-- ==== Sys2Proof/Word.lean ====
section
/-! DEFINITION. The word types of the block: bytes, 16-bit words, 12-bit address fields, register numbers. -/

namespace Sys2Proof

/-- An 8-bit value: a general register, a timer, a byte of memory, an immediate NN (R8, R100). -/
abbrev Byte := BitVec 8

/-- A 16-bit value: PC, I, a return address, an instruction word (R103, R105, R300). -/
abbrev Word := BitVec 16

/-- The 12-bit address field NNN of an instruction word (R301). -/
abbrev Addr := BitVec 12

/-- The number of a general register, V0 = 0 to VF = 15 (R100). -/
abbrev Reg := Fin 16

/-- The sprite height N of Draw, 0 to 15 rows (R302). -/
abbrev Count := Fin 16

/-- The number of one of the sixteen logical keys (R115). -/
abbrev Key := Fin 16

/-- The register that doubles as the flag (R101). -/
abbrev VF : Reg := 15

end Sys2Proof
end

