-- ==== Sys2Proof/Config.lean ====
section
/-! DEFINITION. What a build of the block fixes (the OPEN parameters of R7), what the environment gives one step
(R113), and the free values: constants without a body, which no proof can look into. -/

namespace Sys2Proof

/-- `VF_DEST_POLICY` of R7 and R471: which write to VF survives when VF is the destination of a flag-writing
instruction. -/
inductive VfDestPolicy where
  | flagLast
  | resultLast
  | sequential
deriving DecidableEq, Repr

/-- The parameters that R7 leaves OPEN and that are plain data. Every state carries the record of its build and no
step changes it, so a statement about every state is a statement about every build (assumption log 2). -/
structure Config where
  /-- `STACK_DEPTH`: the most return addresses the call stack holds; `none` is the source's unbounded stack (R106). -/
  stackDepth : Option Nat
  /-- `LOW_NIBBLE_CHECK_5_9`: whether families 5 and 9 refuse a nonzero low nibble (R308). -/
  lowNibbleCheck59 : Bool
  /-- `VF_DEST_POLICY` (R471). -/
  vfDestPolicy : VfDestPolicy
  /-- `FONT_ADDR_HIGH`: the values above 15 at which the build's function differs from the default `0x50 + 5 * d`,
  each with what it gives there (R502). -/
  fontAddrHigh : List (Byte × Word)
deriving DecidableEq, Repr

/-- What the environment answers during one step (R113). -/
structure Inputs where
  /-- Bit k: key k is down. -/
  keysDown : BitVec 16
  /-- The key `poll_available_key()` gives, if any. -/
  availKey : Option Key
  /-- Whether `present` succeeds. -/
  presentOk : Bool
  /-- `is_running()`. -/
  running : Bool
deriving DecidableEq, Repr, Inhabited

/-- FREE VALUE. `RNG_STREAM` (R565): the k-th byte of the block's pseudo-random sequence. The source gives neither
generator nor seed (assumption log 3). -/
opaque Config.rngStream : Nat → Byte

/-- FREE VALUE. What the environment answers in the n-th step of a run once the listed inputs of the state are used
up: any value at each sample (U14; assumption log 4). -/
opaque Config.freeInputs : Nat → Inputs

end Sys2Proof
end

