-- ==== Sys2Proof/Machine/ResetValues.lean ====
section
/-! DEFINITION. The values R700 gives the state at reset, each under its own name, and the build State.reset is of. -/

namespace Sys2Proof.Machine

/-- The defaults of R7 for the parameters it leaves OPEN (assumption log 2). -/
def defaultConfig : Config where
  stackDepth := none
  lowNibbleCheck59 := false
  vfDestPolicy := .flagLast
  fontAddrHigh := []

/-- The reset vector: the first byte of the ROM-load region (R206, R700 item 6). -/
def resetPc : Word := 0x200#16

/-- The general registers at reset (R104, R700 item 4). -/
def resetV : Vector Byte 16 := Vector.replicate 16 0#8

/-- The index register at reset (R105, R700 item 5). -/
def resetIdx : Word := 0#16

/-- The delay timer at reset (R107, R700 item 8). -/
def resetDt : Byte := 255#8

/-- The sound timer at reset (R108, R700 item 8). -/
def resetSt : Byte := 255#8

/-- The display buffer at reset: every pixel 0 (R110, R700 item 9). -/
def resetDisp : Vector (Vector Bool 64) 32 := Vector.replicate 32 (Vector.replicate 64 false)

/-- The draw counter of the random generator at reset (R111, R700 item 10). -/
def resetRngN : Nat := 0

end Sys2Proof.Machine
end

