-- ==== Sys2Proof/Syntax.lean ====
section
/-! DEFINITION. The 35 operation variants of R2 with the operand fields each carries (R302, R303). -/

namespace Sys2Proof

/-- One constructor per row of the opcode map (30_encoding.md, section 4), in its order. -/
inductive Instr where
  /-- 00E0 Clear. -/
  | clear
  /-- 00EE Return. -/
  | ret
  /-- 0NNN MachineCall, NNN neither 0E0 nor 0EE. -/
  | machineCall (nnn : Addr)
  /-- 1NNN Jump. -/
  | jump (nnn : Addr)
  /-- 2NNN Call. -/
  | call (nnn : Addr)
  /-- 3XNN SkipEq (constant). -/
  | skipEqConst (x : Reg) (nn : Byte)
  /-- 4XNN SkipNeq (constant). -/
  | skipNeqConst (x : Reg) (nn : Byte)
  /-- 5XY0 SkipEq (register). -/
  | skipEqReg (x y : Reg)
  /-- 6XNN Load (immediate). -/
  | loadImm (x : Reg) (nn : Byte)
  /-- 7XNN AddConstant. -/
  | addConst (x : Reg) (nn : Byte)
  /-- 8XY0 LoadRegister. -/
  | loadReg (x y : Reg)
  /-- 8XY1 Or. -/
  | orReg (x y : Reg)
  /-- 8XY2 And. -/
  | andReg (x y : Reg)
  /-- 8XY3 Xor. -/
  | xorReg (x y : Reg)
  /-- 8XY4 Add. -/
  | addReg (x y : Reg)
  /-- 8XY5 Sub. -/
  | subReg (x y : Reg)
  /-- 8XY6 ShiftRight; Y is encoded and not read. -/
  | shiftRight (x y : Reg)
  /-- 8XY7 Subn. -/
  | subnReg (x y : Reg)
  /-- 8XYE ShiftLeft; Y is encoded and not read. -/
  | shiftLeft (x y : Reg)
  /-- 9XY0 SkipNeq (register). -/
  | skipNeqReg (x y : Reg)
  /-- ANNN LoadIndex. -/
  | loadIndex (nnn : Addr)
  /-- BNNN JumpPlusV0. -/
  | jumpPlusV0 (nnn : Addr)
  /-- CXNN Random. -/
  | random (x : Reg) (nn : Byte)
  /-- DXYN Draw. -/
  | draw (x y : Reg) (n : Count)
  /-- EX9E KeyPressSkip. -/
  | keyPressSkip (x : Reg)
  /-- EXA1 KeyNotPressSkip. -/
  | keyNotPressSkip (x : Reg)
  /-- FX07 DelayTimerLoadFrom. -/
  | delayTimerLoadFrom (x : Reg)
  /-- FX0A KeyLoad. -/
  | keyLoad (x : Reg)
  /-- FX15 DelayTimerLoadInto. -/
  | delayTimerLoadInto (x : Reg)
  /-- FX18 SoundLoad. -/
  | soundLoad (x : Reg)
  /-- FX1E AddIndex. -/
  | addIndex (x : Reg)
  /-- FX29 LocateSprite. -/
  | locateSprite (x : Reg)
  /-- FX33 LoadBcd. -/
  | loadBcd (x : Reg)
  /-- FX55 StoreRegisters. -/
  | storeRegisters (x : Reg)
  /-- FX65 ReadRegisters. -/
  | readRegisters (x : Reg)
deriving DecidableEq, Repr

end Sys2Proof
end

