-- ==== Sys2Proof/WellFormed.lean ====
section
/-! DEFINITION. Which terms of `Instr` are instructions. The operand types already bound every field to its width
(R301), so one condition is left: a MachineCall is never a word of Clear or of Return (R306). -/

namespace Sys2Proof

/-- The check R306 leaves: 0x0E0 and 0x0EE are no operands of MachineCall, since those words are Clear and Return. -/
def Instr.wellFormed : Instr → Bool
  | .machineCall nnn => nnn != 0x0E0#12 && nnn != 0x0EE#12
  | .clear | .ret | .jump _ | .call _ | .skipEqConst _ _ | .skipNeqConst _ _ | .skipEqReg _ _ | .loadImm _ _
  | .addConst _ _ | .loadReg _ _ | .orReg _ _ | .andReg _ _ | .xorReg _ _ | .addReg _ _ | .subReg _ _
  | .shiftRight _ _ | .subnReg _ _ | .shiftLeft _ _ | .skipNeqReg _ _ | .loadIndex _ | .jumpPlusV0 _ | .random _ _
  | .draw _ _ _ | .keyPressSkip _ | .keyNotPressSkip _ | .delayTimerLoadFrom _ | .keyLoad _ | .delayTimerLoadInto _
  | .soundLoad _ | .addIndex _ | .locateSprite _ | .loadBcd _ | .storeRegisters _ | .readRegisters _ => true

/-- `i` is an instruction of the block. -/
abbrev WellFormed (i : Instr) : Prop := i.wellFormed = true

end Sys2Proof
end

