-- ==== Sys2Proof/Decode.lean ====
section
/-! DEFINITION. The instruction decoder (R300 to R313): total on every word and every byte list, refusing by name; and
the encoder, from the same formats (R303). -/

namespace Sys2Proof

/-- Why bytes are no instruction: the four ways of R308 to R312, and fewer bytes than a word has. -/
inductive DecodeFailure where
  /-- Family 8 with N one of 8, 9, A, B, C, D, F (R309). -/
  | family8 (n : Fin 16)
  /-- Family E with NN neither 9E nor A1 (R310). -/
  | familyE (nn : Byte)
  /-- Family F with NN none of the nine of R311. -/
  | familyF (nn : Byte)
  /-- Family 5 or 9 with N nonzero, in a build that checks it (R308). -/
  | lowNibble59 (n : Fin 16)
  /-- Fewer than the two bytes of an instruction (R300). -/
  | truncated
deriving DecidableEq, Repr

/-- Field F, `w[15:12]` (R301). -/
def fieldF (w : Word) : Fin 16 := Fin.ofNat 16 (w.toNat / 4096)

/-- Field X, `w[11:8]` (R301). -/
def fieldX (w : Word) : Reg := Fin.ofNat 16 (w.toNat / 256)

/-- Field Y, `w[7:4]` (R301). -/
def fieldY (w : Word) : Reg := Fin.ofNat 16 (w.toNat / 16)

/-- Field N, `w[3:0]` (R301). -/
def fieldN (w : Word) : Fin 16 := Fin.ofNat 16 w.toNat

/-- Field NN, `w[7:0]` (R301). -/
def fieldNN (w : Word) : Byte := w.setWidth 8

/-- Field NNN, `w[11:0]` (R301). -/
def fieldNNN (w : Word) : Addr := w.setWidth 12

/-- The second-level dispatch of family 0 (R306). -/
def decodeFamily0 (w : Word) : Instr :=
  if w = 0x00E0#16 then .clear
  else if w = 0x00EE#16 then .ret
  else .machineCall (fieldNNN w)

/-- The second-level dispatch of family 8, on N (R309). -/
def decodeFamily8 (w : Word) : Except DecodeFailure Instr :=
  match (fieldN w).val with
  | 0x0 => .ok (.loadReg (fieldX w) (fieldY w))
  | 0x1 => .ok (.orReg (fieldX w) (fieldY w))
  | 0x2 => .ok (.andReg (fieldX w) (fieldY w))
  | 0x3 => .ok (.xorReg (fieldX w) (fieldY w))
  | 0x4 => .ok (.addReg (fieldX w) (fieldY w))
  | 0x5 => .ok (.subReg (fieldX w) (fieldY w))
  | 0x6 => .ok (.shiftRight (fieldX w) (fieldY w))
  | 0x7 => .ok (.subnReg (fieldX w) (fieldY w))
  | 0xE => .ok (.shiftLeft (fieldX w) (fieldY w))
  | _ => .error (.family8 (fieldN w))

/-- The second-level dispatch of family E, on NN (R310). -/
def decodeFamilyE (w : Word) : Except DecodeFailure Instr :=
  if fieldNN w = 0x9E#8 then .ok (.keyPressSkip (fieldX w))
  else if fieldNN w = 0xA1#8 then .ok (.keyNotPressSkip (fieldX w))
  else .error (.familyE (fieldNN w))

/-- The second-level dispatch of family F, on NN (R311). -/
def decodeFamilyF (w : Word) : Except DecodeFailure Instr :=
  if fieldNN w = 0x07#8 then .ok (.delayTimerLoadFrom (fieldX w))
  else if fieldNN w = 0x0A#8 then .ok (.keyLoad (fieldX w))
  else if fieldNN w = 0x15#8 then .ok (.delayTimerLoadInto (fieldX w))
  else if fieldNN w = 0x18#8 then .ok (.soundLoad (fieldX w))
  else if fieldNN w = 0x1E#8 then .ok (.addIndex (fieldX w))
  else if fieldNN w = 0x29#8 then .ok (.locateSprite (fieldX w))
  else if fieldNN w = 0x33#8 then .ok (.loadBcd (fieldX w))
  else if fieldNN w = 0x55#8 then .ok (.storeRegisters (fieldX w))
  else if fieldNN w = 0x65#8 then .ok (.readRegisters (fieldX w))
  else .error (.familyF (fieldNN w))

/-- Families 5 and 9: N is ignored, or in a checking build must be 0 (R308). -/
def decodeXY (lowNibbleCheck59 : Bool) (i : Instr) (w : Word) : Except DecodeFailure Instr :=
  if lowNibbleCheck59 && fieldN w != 0 then .error (.lowNibble59 (fieldN w)) else .ok i

/-- Decode one word (R304 to R313): dispatch on the family first, then, in families 0, 8, E and F, on the rest. The
first argument is `LOW_NIBBLE_CHECK_5_9` of the build. -/
def decodeWord (lowNibbleCheck59 : Bool) (w : Word) : Except DecodeFailure Instr :=
  match (fieldF w).val with
  | 0x0 => .ok (decodeFamily0 w)
  | 0x1 => .ok (.jump (fieldNNN w))
  | 0x2 => .ok (.call (fieldNNN w))
  | 0x3 => .ok (.skipEqConst (fieldX w) (fieldNN w))
  | 0x4 => .ok (.skipNeqConst (fieldX w) (fieldNN w))
  | 0x5 => decodeXY lowNibbleCheck59 (.skipEqReg (fieldX w) (fieldY w)) w
  | 0x6 => .ok (.loadImm (fieldX w) (fieldNN w))
  | 0x7 => .ok (.addConst (fieldX w) (fieldNN w))
  | 0x8 => decodeFamily8 w
  | 0x9 => decodeXY lowNibbleCheck59 (.skipNeqReg (fieldX w) (fieldY w)) w
  | 0xA => .ok (.loadIndex (fieldNNN w))
  | 0xB => .ok (.jumpPlusV0 (fieldNNN w))
  | 0xC => .ok (.random (fieldX w) (fieldNN w))
  | 0xD => .ok (.draw (fieldX w) (fieldY w) (fieldN w))
  | 0xE => decodeFamilyE w
  | _ => decodeFamilyF w -- 0xF, the one value of the 4-bit field that is left

/-- The word of two bytes, the one at the lower address in bits 15..8 (R202). -/
def bigEndian (hi lo : Byte) : Word := hi ++ lo

/-- Decode the instruction at the head of a byte list, giving the bytes after it (R300: two bytes, big-endian). -/
def decode (lowNibbleCheck59 : Bool) : List Byte → Except DecodeFailure (Instr × List Byte)
  | hi :: lo :: rest => (decodeWord lowNibbleCheck59 (bigEndian hi lo)).map fun i => (i, rest)
  | _ => .error .truncated

/-- Format A, `ffff aaaa aaaa aaaa` (R303). -/
def wordA (f : Nat) (nnn : Addr) : Word := BitVec.ofNat 16 (f * 4096 + nnn.toNat)

/-- Format XB, `ffff xxxx bbbb bbbb` (R303); format X is this with a fixed byte. -/
def wordXB (f : Nat) (x : Reg) (nn : Byte) : Word := BitVec.ofNat 16 (f * 4096 + x.val * 256 + nn.toNat)

/-- Formats XY and XYN, `ffff xxxx yyyy nnnn` (R303). -/
def wordXYN (f : Nat) (x y : Reg) (n : Fin 16) : Word :=
  BitVec.ofNat 16 (f * 4096 + x.val * 256 + y.val * 16 + n.val)

/-- The word of an instruction (the opcode map of 30_encoding.md); 5XY0 and 9XY0 are encoded with N = 0. -/
def encode : Instr → Word
  | .clear => 0x00E0#16
  | .ret => 0x00EE#16
  | .machineCall nnn => wordA 0x0 nnn
  | .jump nnn => wordA 0x1 nnn
  | .call nnn => wordA 0x2 nnn
  | .skipEqConst x nn => wordXB 0x3 x nn
  | .skipNeqConst x nn => wordXB 0x4 x nn
  | .skipEqReg x y => wordXYN 0x5 x y 0x0
  | .loadImm x nn => wordXB 0x6 x nn
  | .addConst x nn => wordXB 0x7 x nn
  | .loadReg x y => wordXYN 0x8 x y 0x0
  | .orReg x y => wordXYN 0x8 x y 0x1
  | .andReg x y => wordXYN 0x8 x y 0x2
  | .xorReg x y => wordXYN 0x8 x y 0x3
  | .addReg x y => wordXYN 0x8 x y 0x4
  | .subReg x y => wordXYN 0x8 x y 0x5
  | .shiftRight x y => wordXYN 0x8 x y 0x6
  | .subnReg x y => wordXYN 0x8 x y 0x7
  | .shiftLeft x y => wordXYN 0x8 x y 0xE
  | .skipNeqReg x y => wordXYN 0x9 x y 0x0
  | .loadIndex nnn => wordA 0xA nnn
  | .jumpPlusV0 nnn => wordA 0xB nnn
  | .random x nn => wordXB 0xC x nn
  | .draw x y n => wordXYN 0xD x y n
  | .keyPressSkip x => wordXB 0xE x 0x9E#8
  | .keyNotPressSkip x => wordXB 0xE x 0xA1#8
  | .delayTimerLoadFrom x => wordXB 0xF x 0x07#8
  | .keyLoad x => wordXB 0xF x 0x0A#8
  | .delayTimerLoadInto x => wordXB 0xF x 0x15#8
  | .soundLoad x => wordXB 0xF x 0x18#8
  | .addIndex x => wordXB 0xF x 0x1E#8
  | .locateSprite x => wordXB 0xF x 0x29#8
  | .loadBcd x => wordXB 0xF x 0x33#8
  | .storeRegisters x => wordXB 0xF x 0x55#8
  | .readRegisters x => wordXB 0xF x 0x65#8

/-- The high byte of a word, which memory holds at the lower address (R202). -/
def highByte (w : Word) : Byte := BitVec.ofNat 8 (w.toNat / 256)

/-- The low byte of a word (R202). -/
def lowByte (w : Word) : Byte := w.setWidth 8

/-- An instruction as memory holds it: two bytes, big-endian (R202, R300). -/
def encodeBytes (i : Instr) : List Byte := [highByte (encode i), lowByte (encode i)]

/-- What the decoder reads from the `nbits`-bit word `w`, laid out as memory holds it, in the default build; the bits
above `nbits` are 0. -/
def decodeTableWord (nbits w : Nat) : Option Instr :=
  let word : Word := BitVec.ofNat 16 (w % 2 ^ nbits)
  match decode Machine.defaultConfig.lowNibbleCheck59 [highByte word, lowByte word] with
  | .ok (i, _) => some i
  | .error _ => none

end Sys2Proof
end

