-- ==== Sys2Proof/Machine/State.lean ====
section
/-! DEFINITION. The state of the block (10_state.md), as plain data, and its value at reset (R700). -/

namespace Sys2Proof.Machine

/-- The causes of R600. -/
inductive FaultCause where
  /-- Code 1: the fetched word matches no pattern. -/
  | decodeFailure
  /-- Code 2: the word is a machine call. -/
  | machineCall
  /-- Code 3: Return on an empty call stack. -/
  | stackUnderflow
  /-- Code 4: Call on a full call stack. -/
  | stackOverflow
  /-- Code 5: an address above 4095 would be accessed. -/
  | boundsViolation
  /-- Code 6: the environment reports that the frame was not presented. -/
  | presentFailure
deriving DecidableEq, Repr

/-- The fault record of R601: the cause, the address of the instruction, and its word (`none` for a fetch fault). -/
structure FaultRecord where
  cause : FaultCause
  pc : Word
  word : Option Word
deriving DecidableEq, Repr

/-- The run status (R112). -/
inductive Status where
  | running
  | stopped
  | faulted (r : FaultRecord)
deriving DecidableEq, Repr

/-- The 4096-byte memory (R109, R200) as the bytes that differ from what an unlisted address reads as, by rising
address. `Memory.wf` (Machine/Ops.lean) is the canonical form. -/
abbrev Memory := List Host.Cell

/-- The display buffer (R110): 32 rows of 64 pixels, `disp[y][x]`. -/
abbrev Disp := Vector (Vector Bool 64) 32

/-- Everything the block holds (10_state.md), then the model's own fields: the interface of R113 and R114 and the
build. -/
structure State where
  /-- V0 to VF (R100). -/
  v : Vector Byte 16
  /-- The program counter PC (R103). -/
  pc : Word
  /-- The index register I (R105). -/
  idx : Word
  /-- The call stack, the most recently pushed return address first (R106). -/
  stack : List Word
  /-- The delay timer DT (R107). -/
  dt : Byte
  /-- The sound timer ST (R108). -/
  st : Byte
  /-- Memory (R109). -/
  mem : Memory
  /-- The display buffer (R110). -/
  disp : Disp
  /-- `rng_n`, how many random bytes have been drawn since reset (R111). -/
  rngN : Nat
  /-- The run status (R112), an output. -/
  status : Status
  /-- MODEL'S OWN. The `frame` output of the last step, `none` if that step delivered none (R114). -/
  frame : Option Disp
  /-- MODEL'S OWN. The inputs of the coming steps, the next step's first (R113). -/
  inputs : List Inputs
  /-- MODEL'S OWN. How many steps have sampled inputs; the free inputs are drawn by it. -/
  inputNo : Nat
  /-- MODEL'S OWN. The build's parameters (R7); no step changes them. -/
  cfg : Config
deriving DecidableEq, Repr

/-- Why there is no step. Both are safe: nothing is claimed of a step the spec says does not exist. -/
inductive Fault where
  /-- Raised by `step` alone, in a state whose status is `Stopped`: R400 gives it no step. Safe. -/
  | runStopped
  /-- Raised by `step` alone, in a state whose status is `Faulted(r)`: R400 gives it no step. Safe. -/
  | runFaulted (r : FaultRecord)
deriving DecidableEq, Repr

/-- What the model gives no run. -/
inductive Refusal where
  /-- Raised by `exec` for an instruction that has no meaning yet. Safe. -/
  | notModelled (mnemonic : String)
  /-- Raised by `launch` alone, for a ROM image longer than 3584 bytes (R702). Safe. -/
  | oversizedRom
deriving DecidableEq, Repr

/-- The block right after reset (R700), in the default build, with the default font and no ROM image: memory lists
nothing, since an unlisted address reads as its reset value. -/
def State.reset : State where
  v := resetV
  pc := resetPc
  idx := resetIdx
  stack := []
  dt := resetDt
  st := resetSt
  mem := []
  disp := resetDisp
  rngN := resetRngN
  status := .running
  frame := none
  inputs := []
  inputNo := 0
  cfg := defaultConfig

end Sys2Proof.Machine
end

