-- ==== Sys2Proof/Machine/Ops.lean ====
section
/-! DEFINITION. The named operations over registers, memory, call stack, display, random sequence, timers, inputs and
run status: the state primitives of R10, and the fatal fault of R601. -/

namespace Sys2Proof.Machine

/-- What every operation that can end a step answers. -/
abbrev Result := Host.Outcome State Fault Refusal

/-- Apply `f` to the next state, if there is one. -/
def mapNext (f : State → State) : Result → Result
  | .next s => .next (f s)
  | .fault r => .fault r
  | .refused r => .refused r

/-! ### Registers (R10) -/

/-- `V[x]`. -/
def State.reg (s : State) (x : Reg) : Byte := s.v[x.val]

/-- `V[x] <- b`. -/
def State.setReg (s : State) (x : Reg) (b : Byte) : State := { s with v := s.v.set x.val b }

/-- `PC <- target`. -/
def State.setPc (s : State) (target : Word) : State := { s with pc := target }

/-- `I <- w`. -/
def State.setIdx (s : State) (w : Word) : State := { s with idx := w }

/-- `DT <- b`. -/
def State.setDt (s : State) (b : Byte) : State := { s with dt := b }

/-- `ST <- b`. -/
def State.setSt (s : State) (b : Byte) : State := { s with st := b }

/-- The PC advance of R403: `PC <- PC + 2`. The skips use it a second time (R446). -/
def State.advance (s : State) : State := s.setPc (s.pc + 2)

/-- The rewind of R563: `PC <- PC - 2`. -/
def State.rewind (s : State) : State := s.setPc (s.pc - 2)

/-- `V[k] <- b` for the bytes of the list, from register k on, in ascending order. -/
def setRegsFrom (k : Nat) : List Byte → Vector Byte 16 → Vector Byte 16
  | [], v => v
  | b :: bs, v => setRegsFrom (k + 1) bs (v.setIfInBounds k b)

/-- Load registers V0 upward with the bytes of the list (R505). -/
def State.setRegs (s : State) (bytes : List Byte) : State := { s with v := setRegsFrom 0 bytes s.v }

/-- The values of V0 to Vx (R504). -/
def State.regsUpTo (s : State) (x : Reg) : List Byte := s.v.toList.take (x.val + 1)

/-! ### Memory (20_memory.md) -/

/-- `MEM_SIZE` (R7, R200). -/
def memSize : Nat := 4096

/-- `FONT_BASE` (R7, R206). -/
def fontBase : Nat := 0x50

/-- `ROM_BASE` (R7, R206). -/
def romBase : Nat := 0x200

/-- `ROM_MAX` (R7, R702). -/
def romMax : Nat := memSize - romBase

/-- The default `FONT_DATA` of R118: glyph d is the five bytes at 5 * d (assumption log 10). -/
def fontData : List Byte :=
  [0xF0#8, 0x90#8, 0x90#8, 0x90#8, 0xF0#8] ++ [0x20#8, 0x60#8, 0x20#8, 0x20#8, 0x70#8] ++
  [0xF0#8, 0x10#8, 0xF0#8, 0x80#8, 0xF0#8] ++ [0xF0#8, 0x10#8, 0xF0#8, 0x10#8, 0xF0#8] ++
  [0x90#8, 0x90#8, 0xF0#8, 0x10#8, 0x10#8] ++ [0xF0#8, 0x80#8, 0xF0#8, 0x10#8, 0xF0#8] ++
  [0xF0#8, 0x80#8, 0xF0#8, 0x90#8, 0xF0#8] ++ [0xF0#8, 0x10#8, 0x20#8, 0x40#8, 0x40#8] ++
  [0xF0#8, 0x90#8, 0xF0#8, 0x90#8, 0xF0#8] ++ [0xF0#8, 0x90#8, 0xF0#8, 0x10#8, 0xF0#8] ++
  [0xF0#8, 0x90#8, 0xF0#8, 0x90#8, 0x90#8] ++ [0xE0#8, 0x90#8, 0xE0#8, 0x90#8, 0xE0#8] ++
  [0xF0#8, 0x80#8, 0x80#8, 0x80#8, 0xF0#8] ++ [0xE0#8, 0x90#8, 0x90#8, 0x90#8, 0xE0#8] ++
  [0xF0#8, 0x80#8, 0xF0#8, 0x80#8, 0xF0#8] ++ [0xF0#8, 0x80#8, 0xF0#8, 0x80#8, 0x80#8]

/-- What an address that memory does not list reads as: its contents at reset without a ROM image, the font at
0x50..0x9F and 0 elsewhere (R109, R206; assumption logs 8 and 10). -/
def unlisted (a : Nat) : Byte := if fontBase ≤ a then fontData.getD (a - fontBase) 0#8 else 0#8

/-- The byte at address `a`. Instructions reach it through `State.slice` and `State.fetch` only, which check the
range. -/
def Memory.byte : Memory → Nat → Byte
  | [], a => unlisted a
  | (k, b) :: m, a => if k = a then b else Memory.byte m a

/-- Write byte `b` at address `a`, keeping the canonical form. Instructions reach it through `State.store` only,
which checks the range. -/
def Memory.set : Memory → Nat → Byte → Memory
  | [], a, b => if b = unlisted a then [] else [(a, b)]
  | (k, c) :: m, a, b =>
    if a < k then (if b = unlisted a then (k, c) :: m else (a, b) :: (k, c) :: m)
    else if a = k then (if b = unlisted a then m else (a, b) :: m)
    else (k, c) :: Memory.set m a b

/-- Write bytes at ascending addresses from `a` on (R202). -/
def Memory.setBytes : Memory → Nat → List Byte → Memory
  | m, _, [] => m
  | m, a, b :: bs => Memory.setBytes (Memory.set m a b) (a + 1) bs

/-- The canonical form, for a list whose addresses are all at least `lo`. -/
def Memory.wfFrom : Nat → Memory → Bool
  | _, [] => true
  | lo, (k, b) :: m => decide (lo ≤ k) && decide (k < memSize) && decide (b ≠ unlisted k) && Memory.wfFrom (k + 1) m

/-- The canonical form of memory: addresses strictly rising and inside memory, no byte that an unlisted address would
read as. -/
def Memory.wf (m : Memory) : Bool := Memory.wfFrom 0 m

/-- Whether the `n` bytes from `base` on all lie in memory, the addresses computed without wrap-around (R201, R204,
R205). An empty range is never out of bounds (D34). -/
def inMemory (base n : Nat) : Bool := n == 0 || decide (base + n ≤ memSize)

/-- `MemRead` of a whole range, checked before anything is read; `none` is a bounds violation (R204, R205). -/
def State.slice (s : State) (base n : Nat) : Option (List Byte) :=
  if inMemory base n then some ((List.range' base n).map (Memory.byte s.mem)) else none

/-- `MemWrite` of a whole range, checked before anything is written; `none` is a bounds violation (R204, R205). -/
def State.store (s : State) (base : Nat) (bytes : List Byte) : Option State :=
  if inMemory base bytes.length then some { s with mem := Memory.setBytes s.mem base bytes } else none

/-- Instruction fetch: the big-endian word at PC, if both bytes lie in memory (R202, R401). -/
def State.fetch (s : State) : Option Word :=
  if 4094 < s.pc.toNat then none
  else some (bigEndian (Memory.byte s.mem s.pc.toNat) (Memory.byte s.mem (s.pc.toNat + 1)))

/-! ### Call stack (R106) -/

/-- `Push(w)`. -/
def State.push (s : State) (w : Word) : State := { s with stack := w :: s.stack }

/-- The stack after `Pop()`, whose answer is the head of the stack before. -/
def State.dropTop (s : State) : State := { s with stack := s.stack.tail }

/-- The call stack already holds `STACK_DEPTH` addresses (R422). -/
def State.stackFull (s : State) : Bool := s.cfg.stackDepth == some s.stack.length

/-! ### Display (45_display.md) -/

/-- `DispGet(x, y)`, the coordinates wrapped. -/
def Disp.get (d : Disp) (x y : Nat) : Bool :=
  (d[y % 32]'(Nat.mod_lt y (by decide)))[x % 64]'(Nat.mod_lt x (by decide))

/-- `DispSet(x, y, bit)` of R530: the new buffer, and whether a lit pixel was turned off. -/
def dispSet (d : Disp) (x y : Nat) (bit : Bool) : Disp × Bool :=
  have hx : x % 64 < 64 := Nat.mod_lt x (by decide)
  have hy : y % 32 < 32 := Nat.mod_lt y (by decide)
  let old := d[y % 32][x % 64]
  (d.set (y % 32) (d[y % 32].set (x % 64) (old ^^ bit)), old && bit)

/-- `DispClear()` of R531. -/
def dispClear : Disp := Vector.replicate 32 (Vector.replicate 64 false)

/-- Replace the display buffer. -/
def State.setDisp (s : State) (d : Disp) : State := { s with disp := d }

/-- One `DispSet` of a drawing under way, its collision OR-ed into what came before (R534). -/
def drawPixel (x y : Nat) (bit : Bool) (acc : Disp × Bool) : Disp × Bool :=
  let r := dispSet acc.1 x y bit
  (r.1, acc.2 || r.2)

/-- The eight columns of one sprite row, most-significant bit first (R534). -/
def drawRow (x0 y : Nat) (b : Byte) (acc : Disp × Bool) : Disp × Bool :=
  (List.range 8).foldl (fun acc c => drawPixel (x0 + c) y (b.getLsbD (7 - c)) acc) acc

/-- The rows of a sprite, downward from row y (R534). -/
def drawRows (x0 : Nat) : Nat → List Byte → Disp × Bool → Disp × Bool
  | _, [], acc => acc
  | y, b :: bs, acc => drawRows x0 (y + 1) bs (drawRow x0 y b acc)

/-! ### Random sequence (R565) -/

/-- The byte the next `RandByte()` gives. -/
def State.randByte (s : State) : Byte := Config.rngStream s.rngN

/-- The advance of the sequence by one byte. -/
def State.nextRand (s : State) : State := { s with rngN := s.rngN + 1 }

/-! ### Timers (R630) -/

/-- One timer, decremented with a floor at 0. -/
def decrement (b : Byte) : Byte := if b = 0#8 then 0#8 else b - 1#8

/-- `TimerTick()`. -/
def State.tick (s : State) : State := { s with dt := decrement s.dt, st := decrement s.st }

/-! ### Inputs and outputs (R113, R114) -/

/-- What the environment answers in this step: the first listed input, or free values. -/
def State.sample (s : State) : Inputs :=
  match s.inputs with
  | i :: _ => i
  | [] => Config.freeInputs s.inputNo

/-- The sample of this step is used up. -/
def State.dropSample (s : State) : State := { s with inputs := s.inputs.tail, inputNo := s.inputNo + 1 }

/-- No frame has been delivered in this step yet. -/
def State.clearFrame (s : State) : State := { s with frame := none }

/-- Deliver the whole display buffer (R405, R532). -/
def State.present (s : State) : State := { s with frame := some s.disp }

/-! ### Fatal faults and the end of a run -/

/-- The code R600 numbers a cause with. -/
def FaultCause.code : FaultCause → Nat
  | .decodeFailure => 1
  | .machineCall => 2
  | .stackUnderflow => 3
  | .stackOverflow => 4
  | .boundsViolation => 5
  | .presentFailure => 6

/-- `raise Fault(cause, a, w)` of R601: the record goes into `status` and nothing else changes (R612). The block has
no return from a fault (R613). -/
def State.raise (s : State) (cause : FaultCause) (a : Word) (w : Option Word) : State :=
  { s with status := .faulted { cause := cause, pc := a, word := w } }

/-- The fault of an instruction in part 4, from the state in which the step fetched it: the PC advance stands, the
record holds the instruction's address and word, and the instruction writes nothing (R409, R602). -/
def State.trap (s : State) (cause : FaultCause) (i : Instr) : State :=
  s.advance.raise cause s.pc (some (encode i))

/-- `status <- Stopped` (R408). -/
def State.stop (s : State) : State := { s with status := .stopped }

end Sys2Proof.Machine
end

