-- ==== Sys2Proof/Machine/Operands.lean ====
section
/-! DEFINITION. How instructions form what they work on: zero-extended fields, masked key numbers, font addresses,
decimal digits. The addresses `I + k` are formed by `State.slice` and `State.store` (R201). -/

namespace Sys2Proof.Machine

/-- `zext_16(NNN)` (R302). -/
def zextAddr (nnn : Addr) : Word := nnn.setWidth 16

/-- `zext_16(b)` for a byte (R302). -/
def zextByte (b : Byte) : Word := b.setWidth 16

/-- `zext_8(k)` for a key number (R563). -/
def keyByte (k : Key) : Byte := BitVec.ofNat 8 k.val

/-- The number of the key a register value names: its low nibble (R115). -/
def keyOf (b : Byte) : Key := Fin.ofNat 16 b.toNat

/-- `KeyDown(k)`: bit k of the sampled `keys_down` (R113). -/
def State.keyDown (s : State) (k : Key) : Bool := s.sample.keysDown.getLsbD k.val

/-- `0x50 + 5 * d`: the glyph of digit d (R502). -/
def glyphAddr (d : Byte) : Word := BitVec.ofNat 16 (fontBase + 5 * d.toNat)

/-- `FONT_ADDR_HIGH` of the build (R502): the listed value, else the default `0x50 + 5 * d`. -/
def fontAddrHigh (cfg : Config) (d : Byte) : Word := (cfg.fontAddrHigh.lookup d).getD (glyphAddr d)

/-- The index LocateSprite computes (R502): a digit's glyph, or for values above 15 what the build gives. -/
def spriteAddr (cfg : Config) (d : Byte) : Word := if d.toNat ≤ 15 then glyphAddr d else fontAddrHigh cfg d

/-- Hundreds, tens and ones of a byte (R503). -/
def bcdDigits (b : Byte) : List Byte :=
  [BitVec.ofNat 8 (b.toNat / 100), BitVec.ofNat 8 (b.toNat / 10 % 10), BitVec.ofNat 8 (b.toNat % 10)]

end Sys2Proof.Machine
end

