-- ==== Sys2Proof/Machine/ControlFlow.lean ====
section
/-! DEFINITION. Return, MachineCall, Jump, Call and JumpPlusV0 (41_control_flow.md). A meaning starts in the state in
which the step fetched the instruction, with `a` in PC, and does parts 3 and 4 of the step (R403, R404; assumption
log 26). -/

namespace Sys2Proof.Machine

/-- Return (R420). -/
def execRet (s : State) : Result :=
  match s.stack with
  | [] => .next (s.trap .stackUnderflow .ret)
  | w :: _ => .next (s.advance.dropTop.setPc w)

/-- MachineCall (R424): refused in the decode part of the step, before the PC advance (R402). -/
def execMachineCall (nnn : Addr) (s : State) : Result :=
  .next (s.raise .machineCall s.pc (some (encode (.machineCall nnn))))

/-- Jump (R421). -/
def execJump (nnn : Addr) (s : State) : Result := .next (s.advance.setPc (zextAddr nnn))

/-- Call (R422): the address pushed is the advanced PC. -/
def execCall (nnn : Addr) (s : State) : Result :=
  if s.stackFull then .next (s.trap .stackOverflow (.call nnn))
  else .next ((s.advance.push s.advance.pc).setPc (zextAddr nnn))

/-- JumpPlusV0 (R423): the sum is not reduced to 12 bits. -/
def execJumpPlusV0 (nnn : Addr) (s : State) : Result :=
  .next (s.advance.setPc (zextAddr nnn + zextByte (s.reg 0)))

end Sys2Proof.Machine
end

