-- ==== Sys2Proof/Machine/Flags.lean ====
section
/-! DEFINITION. The flag computations of family 8 and of Draw, and the write of a result with its flag (R471, R472). -/

namespace Sys2Proof.Machine

/-- A flag as VF holds it: 0 or 1 (R472). -/
def flagByte (f : Bool) : Byte := if f then 1#8 else 0#8

/-- The carry of Add: the exact sum exceeds 255 (R466). -/
def addCarry (a b : Byte) : Bool := decide (255 < a.toNat + b.toNat)

/-- The no-borrow of `a - b` (R467, R468). -/
def noBorrow (a b : Byte) : Bool := decide (b.toNat ≤ a.toNat)

/-- The bit a right shift moves out: bit 0 (R469). -/
def shiftedOutRight (a : Byte) : Bool := a.getLsbD 0

/-- The bit a left shift moves out: bit 7 (R470). -/
def shiftedOutLeft (a : Byte) : Bool := a.getLsbD 7

/-- What VF holds after a flag-writing instruction whose destination is VF itself: the flag, the result, or `seq`, by
the build's policy (R471). -/
def vfDest (policy : VfDestPolicy) (res : Byte) (f : Bool) (seq : Byte) : Byte :=
  match policy with
  | .flagLast => flagByte f
  | .resultLast => res
  | .sequential => seq

/-- `WriteRF(res, f)` of R471: the result to Vx and the flag to VF, or, when x is VF, the one write the build's policy
keeps. `seq` is the instruction's row of R471's table. -/
def State.writeRF (s : State) (x : Reg) (res : Byte) (f : Bool) (seq : Byte) : State :=
  if x = VF then s.setReg VF (vfDest s.cfg.vfDestPolicy res f seq) else (s.setReg x res).setReg VF (flagByte f)

end Sys2Proof.Machine
end

