-- ==== Sys2Proof/Machine/Display.lean ====
section
/-! DEFINITION. Clear and Draw (45_display.md). -/

namespace Sys2Proof.Machine

/-- Clear (R533). -/
def execClear (s : State) : Result := .next (s.advance.setDisp dispClear)

/-- Draw (R534): the coordinates are read before VF is written, and the whole sprite range is checked before anything
is drawn. -/
def execDraw (x y : Reg) (n : Count) (s : State) : Result :=
  match s.slice s.idx.toNat n.val with
  | some rows =>
    let drawn := drawRows (s.reg x).toNat (s.reg y).toNat rows (s.disp, false)
    .next ((s.advance.setDisp drawn.1).setReg VF (flagByte drawn.2))
  | none => .next (s.trap .boundsViolation (.draw x y n))

end Sys2Proof.Machine
end

