-- ==== Sys2Proof/Machine/IndexMemory.lean ====
section
/-! DEFINITION. The index register and the instructions that reach memory through it (44_index_memory.md). I is
changed by no memory access (D14). -/

namespace Sys2Proof.Machine

/-- LoadIndex (R500). -/
def execLoadIndex (nnn : Addr) (s : State) : Result := .next (s.advance.setIdx (zextAddr nnn))

/-- AddIndex (R501): modulo 65536, no flag. -/
def execAddIndex (x : Reg) (s : State) : Result := .next (s.advance.setIdx (s.idx + zextByte (s.reg x)))

/-- LocateSprite (R502). -/
def execLocateSprite (x : Reg) (s : State) : Result := .next (s.advance.setIdx (spriteAddr s.cfg (s.reg x)))

/-- LoadBcd (R503). -/
def execLoadBcd (x : Reg) (s : State) : Result :=
  match s.advance.store s.idx.toNat (bcdDigits (s.reg x)) with
  | some t => .next t
  | none => .next (s.trap .boundsViolation (.loadBcd x))

/-- StoreRegisters (R504). -/
def execStoreRegisters (x : Reg) (s : State) : Result :=
  match s.advance.store s.idx.toNat (s.regsUpTo x) with
  | some t => .next t
  | none => .next (s.trap .boundsViolation (.storeRegisters x))

/-- ReadRegisters (R505). -/
def execReadRegisters (x : Reg) (s : State) : Result :=
  match s.slice s.idx.toNat (x.val + 1) with
  | some bytes => .next (s.advance.setRegs bytes)
  | none => .next (s.trap .boundsViolation (.readRegisters x))

end Sys2Proof.Machine
end

