-- ==== Sys2Proof/Machine/RegisterAlu.lean ====
section
/-! DEFINITION. Families 6, 7 and 8: loads, constant add, bitwise operations, add, subtract, shifts
(43_register_alu.md). Operands are read before anything is written (R11). -/

namespace Sys2Proof.Machine

/-- Load immediate (R460). -/
def execLoadImm (x : Reg) (nn : Byte) (s : State) : Result := .next (s.advance.setReg x nn)

/-- AddConstant (R461): no flag. -/
def execAddConst (x : Reg) (nn : Byte) (s : State) : Result := .next (s.advance.setReg x (s.reg x + nn))

/-- LoadRegister (R462). -/
def execLoadReg (x y : Reg) (s : State) : Result := .next (s.advance.setReg x (s.reg y))

/-- Or (R463). -/
def execOrReg (x y : Reg) (s : State) : Result := .next (s.advance.setReg x (s.reg x ||| s.reg y))

/-- And (R464). -/
def execAndReg (x y : Reg) (s : State) : Result := .next (s.advance.setReg x (s.reg x &&& s.reg y))

/-- Xor (R465). -/
def execXorReg (x y : Reg) (s : State) : Result := .next (s.advance.setReg x (s.reg x ^^^ s.reg y))

/-- Add (R466). -/
def execAddReg (x y : Reg) (s : State) : Result :=
  let f := addCarry (s.reg x) (s.reg y)
  .next (s.advance.writeRF x (s.reg x + s.reg y) f (flagByte f))

/-- Sub (R467). -/
def execSubReg (x y : Reg) (s : State) : Result :=
  let f := noBorrow (s.reg x) (s.reg y)
  .next (s.advance.writeRF x (s.reg x - s.reg y) f (flagByte f))

/-- Subn (R468). -/
def execSubnReg (x y : Reg) (s : State) : Result :=
  let f := noBorrow (s.reg y) (s.reg x)
  .next (s.advance.writeRF x (s.reg y - s.reg x) f (flagByte f))

/-- ShiftRight (R469): Vy is not read. Under the sequential policy the flag, written to VF first, is then shifted. -/
def execShiftRight (x _y : Reg) (s : State) : Result :=
  let f := shiftedOutRight (s.reg x)
  .next (s.advance.writeRF x (s.reg x >>> 1) f (flagByte f >>> 1))

/-- ShiftLeft (R470): Vy is not read. Under the sequential policy the flag, written to VF first, is then shifted. -/
def execShiftLeft (x _y : Reg) (s : State) : Result :=
  let f := shiftedOutLeft (s.reg x)
  .next (s.advance.writeRF x (s.reg x <<< 1) f (flagByte f <<< 1))

end Sys2Proof.Machine
end

