-- ==== Sys2Proof/Machine/Skip.lean ====
section
/-! DEFINITION. The six conditional skips (42_skip.md). -/

namespace Sys2Proof.Machine

/-- The skip mechanism of R446, from the state in which the step fetched the skip: the PC advances, and once more if
the condition holds. -/
def State.skipIf (s : State) (cond : Bool) : State := if cond then s.advance.advance else s.advance

/-- SkipEq constant (R440). -/
def execSkipEqConst (x : Reg) (nn : Byte) (s : State) : Result := .next (s.skipIf (s.reg x == nn))

/-- SkipNeq constant (R441). -/
def execSkipNeqConst (x : Reg) (nn : Byte) (s : State) : Result := .next (s.skipIf (s.reg x != nn))

/-- SkipEq register (R442). -/
def execSkipEqReg (x y : Reg) (s : State) : Result := .next (s.skipIf (s.reg x == s.reg y))

/-- SkipNeq register (R443). -/
def execSkipNeqReg (x y : Reg) (s : State) : Result := .next (s.skipIf (s.reg x != s.reg y))

/-- KeyPressSkip (R444). -/
def execKeyPressSkip (x : Reg) (s : State) : Result := .next (s.skipIf (s.keyDown (keyOf (s.reg x))))

/-- KeyNotPressSkip (R445): a key is up exactly when it is not down (R113). -/
def execKeyNotPressSkip (x : Reg) (s : State) : Result := .next (s.skipIf (!s.keyDown (keyOf (s.reg x))))

end Sys2Proof.Machine
end

