-- ==== Sys2Proof/Machine/TimerKeyRandom.lean ====
section
/-! DEFINITION. Timer transfers, key wait and random (46_timer_key_random.md). -/

namespace Sys2Proof.Machine

/-- DelayTimerLoadFrom (R560). -/
def execDelayTimerLoadFrom (x : Reg) (s : State) : Result := .next (s.advance.setReg x s.dt)

/-- DelayTimerLoadInto (R561). -/
def execDelayTimerLoadInto (x : Reg) (s : State) : Result := .next (s.advance.setDt (s.reg x))

/-- SoundLoad (R562). -/
def execSoundLoad (x : Reg) (s : State) : Result := .next (s.advance.setSt (s.reg x))

/-- The effect of KeyLoad in part 4 (R563), on the state the PC of which is already advanced. -/
def State.loadKey (s : State) (x : Reg) : Option Key → State
  | none => s.rewind
  | some k => s.setReg x (keyByte k)

/-- KeyLoad (R563). -/
def execKeyLoad (x : Reg) (s : State) : Result := .next (s.advance.loadKey x s.sample.availKey)

/-- Random (R564): one byte of the sequence is used up, whatever the mask. -/
def execRandom (x : Reg) (nn : Byte) (s : State) : Result :=
  .next (s.advance.nextRand.setReg x (s.randByte &&& nn))

end Sys2Proof.Machine
end

