-- ==== Sys2Proof/Machine/Dispatch.lean ====
section
/-! DEFINITION. One arm per instruction: parts 3 and 4 of the step (R403, R404), and for MachineCall the refusal of
part 2 (R402). -/

namespace Sys2Proof.Machine

def exec (i : Instr) (s : State) : Host.Outcome State Fault Refusal :=
  match i with
  | .clear => Sys2Proof.Machine.execClear s
  | .ret => Sys2Proof.Machine.execRet s
  | .machineCall nnn => Sys2Proof.Machine.execMachineCall nnn s
  | .jump nnn => Sys2Proof.Machine.execJump nnn s
  | .call nnn => Sys2Proof.Machine.execCall nnn s
  | .skipEqConst x nn => Sys2Proof.Machine.execSkipEqConst x nn s
  | .skipNeqConst x nn => Sys2Proof.Machine.execSkipNeqConst x nn s
  | .skipEqReg x y => Sys2Proof.Machine.execSkipEqReg x y s
  | .loadImm x nn => Sys2Proof.Machine.execLoadImm x nn s
  | .addConst x nn => Sys2Proof.Machine.execAddConst x nn s
  | .loadReg x y => Sys2Proof.Machine.execLoadReg x y s
  | .orReg x y => Sys2Proof.Machine.execOrReg x y s
  | .andReg x y => Sys2Proof.Machine.execAndReg x y s
  | .xorReg x y => Sys2Proof.Machine.execXorReg x y s
  | .addReg x y => Sys2Proof.Machine.execAddReg x y s
  | .subReg x y => Sys2Proof.Machine.execSubReg x y s
  | .shiftRight x y => Sys2Proof.Machine.execShiftRight x y s
  | .subnReg x y => Sys2Proof.Machine.execSubnReg x y s
  | .shiftLeft x y => Sys2Proof.Machine.execShiftLeft x y s
  | .skipNeqReg x y => Sys2Proof.Machine.execSkipNeqReg x y s
  | .loadIndex nnn => Sys2Proof.Machine.execLoadIndex nnn s
  | .jumpPlusV0 nnn => Sys2Proof.Machine.execJumpPlusV0 nnn s
  | .random x nn => Sys2Proof.Machine.execRandom x nn s
  | .draw x y n => Sys2Proof.Machine.execDraw x y n s
  | .keyPressSkip x => Sys2Proof.Machine.execKeyPressSkip x s
  | .keyNotPressSkip x => Sys2Proof.Machine.execKeyNotPressSkip x s
  | .delayTimerLoadFrom x => Sys2Proof.Machine.execDelayTimerLoadFrom x s
  | .keyLoad x => Sys2Proof.Machine.execKeyLoad x s
  | .delayTimerLoadInto x => Sys2Proof.Machine.execDelayTimerLoadInto x s
  | .soundLoad x => Sys2Proof.Machine.execSoundLoad x s
  | .addIndex x => Sys2Proof.Machine.execAddIndex x s
  | .locateSprite x => Sys2Proof.Machine.execLocateSprite x s
  | .loadBcd x => Sys2Proof.Machine.execLoadBcd x s
  | .storeRegisters x => Sys2Proof.Machine.execStoreRegisters x s
  | .readRegisters x => Sys2Proof.Machine.execReadRegisters x s

end Sys2Proof.Machine
end

