-- ==== Sys2Proof/Machine/Cycle.lean ====
section
/-! DEFINITION. The six parts of the per-cycle contract (R400) and the launch of a program (R700 to R702). -/

namespace Sys2Proof.Machine

/-- Part 6 and the stop (R407, R408): the timers fall, and then a false `running` ends the run. -/
def State.finishTimers (s : State) (running : Bool) : State := if running then s.tick else s.tick.stop

/-- Parts 5 and 6 after an instruction that raised no fault (R405 to R408): the frame is delivered; a failed present
is a fault; otherwise the timers fall and `running` decides whether the run goes on. -/
def State.finish (s : State) (a w : Word) : State :=
  if s.sample.presentOk then s.present.finishTimers s.sample.running
  else s.present.raise .presentFailure a (some w)

/-- What follows part 4: parts 5 and 6, or nothing after a fault of part 4 or of the refusal of a machine call
(R409). -/
def State.afterExec (a w : Word) (s : State) : State :=
  match s.status with
  | .running => s.finish a w
  | .stopped => s
  | .faulted _ => s

/-- The six parts of one step of a running block (R400): fetch (R401), decode (R402), then the instruction and what
follows it. -/
def cycle (s : State) : Result :=
  match s.fetch with
  | none => .next (s.raise .boundsViolation s.pc none)
  | some w =>
    match decodeWord s.cfg.lowNibbleCheck59 w with
    | .error _ => .next (s.raise .decodeFailure s.pc (some w))
    | .ok i => mapNext (State.afterExec s.pc w) (exec i s)

/-- Start the block on a ROM image (R700 to R702), in a build, with its 80 font bytes and with the inputs of the first
steps: the state of R700 with the font at 0x50 and byte j of the image at 0x200 + j. An image longer than 3584 bytes
has no launch (R702). -/
def launch (cfg : Config) (font : Vector Byte 80) (rom : List Byte) (inputs : List Inputs) : Result :=
  if romMax < rom.length then .refused .oversizedRom
  else .next { State.reset with
    cfg := cfg
    inputs := inputs
    mem := Memory.setBytes (Memory.setBytes [] fontBase font.toList) romBase rom }

/-- The two bytes of a word, stored big-endian at PC. -/
def State.placeWord (s : State) (w : Word) : State :=
  { s with mem := Memory.setBytes s.mem s.pc.toNat [highByte w, lowByte w] }

end Sys2Proof.Machine
end

