-- ==== Sys2Proof/Machine/Step.lean ====
section
/-! DEFINITION. One step of the block, and the placing of an instruction where the next step fetches it. -/

namespace Sys2Proof.Machine

/-- One step (R400). Only a running block has one; each step delivers at most its own frame and uses up one sample of
the inputs. -/
def step (s : State) : Host.Outcome State Fault Refusal :=
  match s.status with
  | .running => mapNext State.dropSample (cycle s.clearFrame)
  | .stopped => .fault .runStopped
  | .faulted r => .fault (.runFaulted r)

/-- `s` with the `nbits`-bit instruction `w` stored where `step` fetches next; the bits above `nbits` are 0. -/
def State.withFetchWord (s : State) (nbits w : Nat) : State := s.placeWord (BitVec.ofNat 16 (w % 2 ^ nbits))

end Sys2Proof.Machine
end

