-- ==== Sys2Proof/Safety.lean ====
section
/-! DEFINITION. What claims call a safe state, a safe run and a legal state. -/

namespace Sys2Proof.Machine

/-- No fatal fault has been recorded (R112, R600). -/
def State.safe (s : State) : Bool :=
  match s.status with
  | .running => true
  | .stopped => true
  | .faulted _ => false

/-- `t` is what `k` steps from `s` answer. -/
def Reaches (k : Nat) (s t : State) : Prop := Sys2Proof.core.run k s = Host.Outcome.next t

/-- Every state that at most `k` steps from `s` reach is safe. -/
def SafeFor (k : Nat) (s : State) : Prop := ∀ j t, j ≤ k → Reaches j s t → t.safe = true

/-- The bound of R103 on PC and of R420 on the return addresses: no PC that an instruction writes exceeds 0x10FE, and
a return address lies in 0x002 to 0x1000. -/
def State.PcBounded (s : State) : Prop :=
  s.pc.toNat ≤ 0x10FE ∧ ∀ w ∈ s.stack, 0x002 ≤ w.toNat ∧ w.toNat ≤ 0x1000

/-- The call stack holds no more than the build allows (R106). -/
def State.StackBounded (s : State) : Prop := ∀ d, s.cfg.stackDepth = some d → s.stack.length ≤ d

/-- A state that is legal on this hardware: memory in its canonical form inside 0..4095, PC and call stack within
their bounds. -/
structure State.Inv (s : State) : Prop where
  memory : Memory.wf s.mem = true
  pc : s.PcBounded
  stack : s.StackBounded

end Sys2Proof.Machine
end

