-- ==== Sys2Proof/Certificates/Slice0/Obligations.lean ====
section
/-! DEFINITION. The statements for the provers, and the words they are stated in. Where a statement has a premise
`Memory.wf s.mem = true`, the premise is an invariant of the machine (`EveryStepKeepsTheInvariant`,
`ResetMeetsTheInvariant`). A clause on decoding rests on the encodings of R306 to R311, 31 of which the spec takes from
general knowledge (its D4; assumption log 11). A docstring that names a decision D<n> says which clause is the spec's own
choice and not its source's. -/

namespace Sys2Proof.Claims

open Sys2Proof Sys2Proof.Machine

/-- The parts of the state, beside PC and the registers, that an instruction may write. -/
inductive Part where
  | idx
  | stack
  | dt
  | st
  | mem
  | disp
  | rngN
deriving DecidableEq, Repr

/-- The frame of an instruction: from `s` to `t` only PC, the registers of `regs` and the parts of `parts` may have
changed. Memory is compared byte by byte. -/
structure SameExcept (parts : List Part) (regs : List Reg) (s t : State) : Prop where
  reg : ∀ r, r ∉ regs → t.reg r = s.reg r
  idx : Part.idx ∉ parts → t.idx = s.idx
  stack : Part.stack ∉ parts → t.stack = s.stack
  dt : Part.dt ∉ parts → t.dt = s.dt
  st : Part.st ∉ parts → t.st = s.st
  mem : Part.mem ∉ parts → ∀ a, Memory.byte t.mem a = Memory.byte s.mem a
  disp : Part.disp ∉ parts → t.disp = s.disp
  rngN : Part.rngN ∉ parts → t.rngN = s.rngN
  status : t.status = s.status
  frame : t.frame = s.frame
  inputs : t.inputs = s.inputs
  inputNo : t.inputNo = s.inputNo
  cfg : t.cfg = s.cfg

/-- The instruction ends in a fatal fault of part 4 (R409, R601, R602): PC has advanced, the record is in the status,
and nothing else has changed. -/
def FaultsInExecute (cause : FaultCause) (i : Instr) (s : State) : Prop :=
  exec i s = .next
    { s with pc := s.pc + 2, status := .faulted { cause := cause, pc := s.pc, word := some (encode i) } }

/-- The instruction completes with a register-file effect only: PC is `a + 2`, register x holds `b`, and every other
register and everything else is as before. -/
def LoadsRegister (i : Instr) (s : State) (x : Reg) (b : Byte) : Prop :=
  ∃ t, exec i s = .next t ∧ t.pc = s.pc + 2 ∧ t.reg x = b ∧ SameExcept [] [x] s t

/-- The instruction completes with `WriteRF(res, f)` of R471, `seq` being the value of its row under the policy
`Sequential`: for x other than VF both writes stand, for x = VF the one the build's policy keeps. -/
def WritesResultAndFlag (i : Instr) (s : State) (x : Reg) (res f seq : Byte) : Prop :=
  ∃ t, exec i s = .next t ∧ t.pc = s.pc + 2 ∧ SameExcept [] [x, VF] s t ∧
    (x ≠ VF → t.reg x = res ∧ t.reg VF = f) ∧
    (x = VF → s.cfg.vfDestPolicy = .flagLast → t.reg VF = f) ∧
    (x = VF → s.cfg.vfDestPolicy = .resultLast → t.reg VF = res) ∧
    (x = VF → s.cfg.vfDestPolicy = .sequential → t.reg VF = seq)

/-- The instruction completes as a skip on `cond` (R446): PC is `a + 4` if the condition holds, else `a + 2`, and
nothing else changes. -/
def SkipsIff (i : Instr) (s : State) (cond : Prop) : Prop :=
  ∃ t, exec i s = .next t ∧ SameExcept [] [] s t ∧ (cond → t.pc = s.pc + 4) ∧ (¬ cond → t.pc = s.pc + 2)

/-- The sprite of `Draw x y n` in state `s` covers pixel (px, py): some set bit of it, in row r and column c, lands
there, the coordinates wrapped modulo 64 and 32 (R534). -/
def Covers (s : State) (x y : Reg) (n : Count) (px py : Nat) : Prop :=
  ∃ r < n.val, ∃ c < 8, (Memory.byte s.mem (s.idx.toNat + r)).getLsbD (7 - c) = true ∧
    px = ((s.reg x).toNat + c) % 64 ∧ py = ((s.reg y).toNat + r) % 32

/-- Some pixel that the sprite of `Draw x y n` covers is lit. -/
def HitsLitPixel (s : State) (x y : Reg) (n : Count) : Prop :=
  ∃ px < 64, ∃ py < 32, Covers s x y n px py ∧ s.disp.get px py = true

/-- Every byte of the sprite lies in memory; an empty sprite always does (R534). -/
def SpriteInMemory (s : State) (n : Count) : Prop := 0 < n.val → s.idx.toNat + (n.val - 1) ≤ 4095

/-- The general registers an instruction reads (R102, column "reads"). -/
def readsRegs : Instr → List Reg
  | .clear | .ret | .machineCall _ | .jump _ | .call _ | .loadIndex _ => []
  | .skipEqConst x _ | .skipNeqConst x _ | .addConst x _ => [x]
  | .skipEqReg x y | .skipNeqReg x y => [x, y]
  | .loadImm _ _ | .random _ _ => []
  | .loadReg _ y => [y]
  | .orReg x y | .andReg x y | .xorReg x y | .addReg x y | .subReg x y | .subnReg x y => [x, y]
  | .shiftRight x _ | .shiftLeft x _ => [x]
  | .jumpPlusV0 _ => [0]
  | .draw x y _ => [x, y]
  | .keyPressSkip x | .keyNotPressSkip x => [x]
  | .delayTimerLoadFrom _ | .keyLoad _ => []
  | .delayTimerLoadInto x | .soundLoad x | .addIndex x | .locateSprite x | .loadBcd x => [x]
  | .storeRegisters x => (List.finRange 16).filter (· ≤ x)
  | .readRegisters _ => []

/-- The general registers an instruction writes (R102, column "writes"). -/
def writesRegs : Instr → List Reg
  | .clear | .ret | .machineCall _ | .jump _ | .call _ | .loadIndex _ | .jumpPlusV0 _ => []
  | .skipEqConst _ _ | .skipNeqConst _ _ | .skipEqReg _ _ | .skipNeqReg _ _ => []
  | .keyPressSkip _ | .keyNotPressSkip _ => []
  | .loadImm x _ | .addConst x _ | .loadReg x _ | .orReg x _ | .andReg x _ | .xorReg x _ => [x]
  | .addReg x _ | .subReg x _ | .subnReg x _ | .shiftRight x _ | .shiftLeft x _ => [x, VF]
  | .random x _ | .delayTimerLoadFrom x | .keyLoad x => [x]
  | .draw _ _ _ => [VF]
  | .delayTimerLoadInto _ | .soundLoad _ | .addIndex _ | .locateSprite _ | .loadBcd _ | .storeRegisters _ => []
  | .readRegisters x => (List.finRange 16).filter (· ≤ x)

/-- One of the five instructions R471 lists, with destination VF. -/
def flagIntoVF : Instr → Bool
  | .addReg x _ | .subReg x _ | .subnReg x _ | .shiftRight x _ | .shiftLeft x _ => x == VF
  | _ => false

/-- One of the three instructions that sample a key input (R113). -/
def readsKeys : Instr → Bool
  | .keyPressSkip _ | .keyNotPressSkip _ | .keyLoad _ => true
  | _ => false

/-- The state in which the block is right after the inputs of the step have been used up. -/
def sampleUsed (s : State) : State := { s with inputs := s.inputs.tail, inputNo := s.inputNo + 1 }

/-- The step of a running block at `s` has fetched the word `w` and decoded the instruction `i` from it. -/
def AtInstruction (s : State) (w : Word) (i : Instr) : Prop :=
  s.status = .running ∧ s.fetch = some w ∧ decodeWord s.cfg.lowNibbleCheck59 w = .ok i

/-- The environment lets the step go on: the frame is presented, and the run is to continue. -/
def GoesOn (inp : Inputs) : Prop := inp.presentOk = true ∧ inp.running = true

end Sys2Proof.Claims

open Sys2Proof Sys2Proof.Machine Sys2Proof.Claims

/-! ### Encoding (30_encoding.md) -/

/-- Every well-formed instruction, with every operand, is what its two bytes decode to, in every build, and the
decoder leaves the bytes after it (R300 to R311). The encodings: D4, log 11. -/
def Obligations.DecodeOfEncodedInstruction : Prop :=
  ∀ (chk : Bool) (i : Instr) (rest : List Byte), WellFormed i → decode chk (encodeBytes i ++ rest) = .ok (i, rest)

/-- A word that decodes, decodes to a well-formed instruction whose encoding is that word, except that families 5 and
9 forget their low nibble (R304 to R311). The encodings: D4, log 11; the low nibble: D6, log 12. -/
def Obligations.EncodeOfDecodedWord : Prop :=
  ∀ (chk : Bool) (w : Word) (i : Instr), decodeWord chk w = .ok i →
    WellFormed i ∧ (encode i = w ∨ ((fieldF w = 5 ∨ fieldF w = 9) ∧ encode i = w &&& 0xFFF0#16))

/-- The words that decode to nothing are exactly those of R309, R310 and R311, and in a checking build those of R308
(R312). The encodings: D4, D5, log 11; the low nibble: D6, log 12. -/
def Obligations.DecodeFailsExactlyOnUnassignedWords : Prop :=
  ∀ (chk : Bool) (w : Word), (∃ e, decodeWord chk w = .error e) ↔
    (fieldF w = 8 ∧ fieldN w ∈ ([8, 9, 0xA, 0xB, 0xC, 0xD, 0xF] : List (Fin 16))) ∨
    (fieldF w = 0xE ∧ fieldNN w ∉ [0x9E#8, 0xA1#8]) ∨
    (fieldF w = 0xF ∧
      fieldNN w ∉ [0x07#8, 0x0A#8, 0x15#8, 0x18#8, 0x1E#8, 0x29#8, 0x33#8, 0x55#8, 0x65#8]) ∨
    (chk = true ∧ (fieldF w = 5 ∨ fieldF w = 9) ∧ fieldN w ≠ 0)

/-- Family 0: 00E0 is Clear, 00EE is Return, every other word is MachineCall of its NNN (R306). -/
def Obligations.FamilyZeroWords : Prop :=
  ∀ (chk : Bool) (nnn : Addr),
    decodeWord chk (wordA 0x0 nnn) = .ok (if nnn = 0x0E0#12 then .clear else if nnn = 0x0EE#12 then .ret
      else .machineCall nnn)

/-- Words written out from the opcode map decode to the variants it names (a sanity statement). The encodings: D4,
log 11. -/
def Obligations.SampleWordsDecode : Prop :=
  decodeWord false 0b0000000011100000#16 = .ok .clear ∧
  decodeWord false 0b0010001000001110#16 = .ok (.call 0x20E#12) ∧
  decodeWord false 0b1000101010110100#16 = .ok (.addReg 0xA 0xB) ∧
  decodeWord false 0b1101000100100011#16 = .ok (.draw 1 2 3) ∧
  decodeWord false 0b1110010010011110#16 = .ok (.keyPressSkip 4) ∧
  decodeWord false 0b1111001001010101#16 = .ok (.storeRegisters 2)

/-! ### Control flow (41_control_flow.md) -/

/-- Return (R420). What a run pushes lies in 0x002 to 0x1000 (`State.PcBounded`), and a return above 4094 faults at the
next fetch only. That fetch fault: D10, log 19. -/
def Obligations.ReturnPopsTheCallStack : Prop :=
  (∀ (chk : Bool), decodeWord chk 0x00EE#16 = .ok .ret) ∧
  (∀ (s : State) (top : Word) (rest : List Word), s.stack = top :: rest →
    ∃ t, exec .ret s = .next t ∧ t.pc = top ∧ t.stack = rest ∧ SameExcept [.stack] [] s t ∧
      (s.PcBounded → 0x002 ≤ t.pc.toNat ∧ t.pc.toNat ≤ 0x1000) ∧ (4094 < t.pc.toNat → t.fetch = none)) ∧
  (∀ (s : State), s.stack = [] → FaultsInExecute .stackUnderflow .ret s)

/-- Jump (R421). -/
def Obligations.JumpLoadsThePc : Prop :=
  ∀ (chk : Bool) (nnn : Addr), decodeWord chk (wordA 0x1 nnn) = .ok (.jump nnn) ∧
    ∀ (s : State), ∃ t, exec (.jump nnn) s = .next t ∧ t.pc.toNat = nnn.toNat ∧ SameExcept [] [] s t

/-- Call (R422): it pushes `a + 2`; it faults exactly when the stack holds `STACK_DEPTH` addresses, never for the
unbounded stack. The bound: D17, log 18. -/
def Obligations.CallPushesTheReturnAddress : Prop :=
  ∀ (chk : Bool) (nnn : Addr), decodeWord chk (wordA 0x2 nnn) = .ok (.call nnn) ∧
    ∀ (s : State),
      (s.cfg.stackDepth ≠ some s.stack.length →
        ∃ t, exec (.call nnn) s = .next t ∧ t.pc.toNat = nnn.toNat ∧ t.stack = (s.pc + 2) :: s.stack ∧
          SameExcept [.stack] [] s t) ∧
      (s.cfg.stackDepth = some s.stack.length → FaultsInExecute .stackOverflow (.call nnn) s)

/-- JumpPlusV0 (R423): the exact sum, not reduced modulo 4096. The fetch fault above 4094: D10, log 19. -/
def Obligations.JumpPlusV0AddsV0 : Prop :=
  ∀ (chk : Bool) (nnn : Addr), decodeWord chk (wordA 0xB nnn) = .ok (.jumpPlusV0 nnn) ∧
    ∀ (s : State), ∃ t, exec (.jumpPlusV0 nnn) s = .next t ∧ t.pc.toNat = nnn.toNat + (s.reg 0).toNat ∧
      SameExcept [] [] s t ∧ (4094 < t.pc.toNat → t.fetch = none)

/-- MachineCall (R424): every family-0 word other than 00E0 and 00EE always ends in the fault `MachineCall`, with PC
still at the instruction and nothing else changed. The fault at decode: D7, log 20. -/
def Obligations.MachineCallAlwaysFaults : Prop :=
  ∀ (nnn : Addr), nnn ≠ 0x0E0#12 → nnn ≠ 0x0EE#12 →
    (∀ (chk : Bool), decodeWord chk (wordA 0x0 nnn) = .ok (.machineCall nnn)) ∧
    ∀ (s : State), exec (.machineCall nnn) s = .next
      { s with status := .faulted { cause := .machineCall, pc := s.pc, word := some (wordA 0x0 nnn) } }

/-- Return gives control back to the instruction after the call, whatever the subroutine did with everything but the
stack (R420, R422, R425). The bound: D17, log 18. -/
def Obligations.ReturnUndoesCall : Prop :=
  ∀ (s t b : State) (nnn : Addr), s.cfg.stackDepth ≠ some s.stack.length → exec (.call nnn) s = .next t →
    b.stack = t.stack → ∃ u, exec .ret b = .next u ∧ u.pc = s.pc + 2 ∧ u.stack = s.stack

/-! ### Skips (42_skip.md) -/

/-- SkipEq and SkipNeq with a constant (R440, R441). The encodings: D4, log 11. -/
def Obligations.SkipsCompareWithConstant : Prop :=
  ∀ (x : Reg) (nn : Byte),
    (∀ chk, decodeWord chk (wordXB 0x3 x nn) = .ok (.skipEqConst x nn)) ∧
    (∀ chk, decodeWord chk (wordXB 0x4 x nn) = .ok (.skipNeqConst x nn)) ∧
    ∀ (s : State), SkipsIff (.skipEqConst x nn) s (s.reg x = nn) ∧ SkipsIff (.skipNeqConst x nn) s (s.reg x ≠ nn)

/-- SkipEq and SkipNeq with a register (R442, R443), with the two readings of the low nibble (R308). The low nibble:
D6, log 12. -/
def Obligations.SkipsCompareRegisters : Prop :=
  ∀ (x y : Reg),
    (∀ n, decodeWord false (wordXYN 0x5 x y n) = .ok (.skipEqReg x y)) ∧
    (∀ n, decodeWord false (wordXYN 0x9 x y n) = .ok (.skipNeqReg x y)) ∧
    decodeWord true (wordXYN 0x5 x y 0) = .ok (.skipEqReg x y) ∧
    decodeWord true (wordXYN 0x9 x y 0) = .ok (.skipNeqReg x y) ∧
    (∀ n, n ≠ 0 → (∃ e, decodeWord true (wordXYN 0x5 x y n) = .error e) ∧
      ∃ e, decodeWord true (wordXYN 0x9 x y n) = .error e) ∧
    ∀ (s : State), SkipsIff (.skipEqReg x y) s (s.reg x = s.reg y) ∧
      SkipsIff (.skipNeqReg x y) s (s.reg x ≠ s.reg y)

/-- KeyPressSkip and KeyNotPressSkip (R444, R445): the key is the low nibble of Vx, the sample is this step's. One
sample, key up as its complement: D3, log 24. -/
def Obligations.SkipsQueryTheKeypad : Prop :=
  ∀ (x : Reg),
    (∀ chk, decodeWord chk (wordXB 0xE x 0x9E#8) = .ok (.keyPressSkip x)) ∧
    (∀ chk, decodeWord chk (wordXB 0xE x 0xA1#8) = .ok (.keyNotPressSkip x)) ∧
    ∀ (s : State),
      SkipsIff (.keyPressSkip x) s (s.sample.keysDown.getLsbD ((s.reg x).toNat % 16) = true) ∧
      SkipsIff (.keyNotPressSkip x) s (s.sample.keysDown.getLsbD ((s.reg x).toNat % 16) = false)

/-- The skip mechanism (R446), for all six skips: PC becomes `a + 2` or `a + 4`, nothing else changes, and what
memory holds, the skipped word included, plays no part. The spec derives this from R446, R401 and R402. -/
def Obligations.SkippedWordPlaysNoPart : Prop :=
  ∀ (i : Instr) (x y : Reg) (nn : Byte),
    i ∈ [.skipEqConst x nn, .skipNeqConst x nn, .skipEqReg x y, .skipNeqReg x y, .keyPressSkip x,
      .keyNotPressSkip x] →
    ∀ (s : State), ∃ t, exec i s = .next t ∧ (t.pc = s.pc + 2 ∨ t.pc = s.pc + 4) ∧ SameExcept [] [] s t ∧
      ∀ (m : Memory), exec i { s with mem := m } = .next { t with mem := m }

/-! ### Registers and ALU (43_register_alu.md) -/

/-- Load immediate and LoadRegister (R460, R462). The encodings: D4, log 11. -/
def Obligations.LoadsCopyIntoRegister : Prop :=
  ∀ (x y : Reg) (nn : Byte),
    (∀ chk, decodeWord chk (wordXB 0x6 x nn) = .ok (.loadImm x nn)) ∧
    (∀ chk, decodeWord chk (wordXYN 0x8 x y 0x0) = .ok (.loadReg x y)) ∧
    ∀ (s : State), LoadsRegister (.loadImm x nn) s x nn ∧ LoadsRegister (.loadReg x y) s x (s.reg y)

/-- AddConstant (R461): modulo 256, and VF is written only as the destination. The encoding: D4, log 11. -/
def Obligations.AddConstantWritesNoFlag : Prop :=
  ∀ (x : Reg) (nn : Byte), (∀ chk, decodeWord chk (wordXB 0x7 x nn) = .ok (.addConst x nn)) ∧
    ∀ (s : State), LoadsRegister (.addConst x nn) s x (BitVec.ofNat 8 (((s.reg x).toNat + nn.toNat) % 256))

/-- Or, And and Xor (R463 to R465): bit by bit, and VF is written only as the destination. That VF is left alone:
D13, log 15. -/
def Obligations.BitwiseOperationsWriteNoFlag : Prop :=
  ∀ (x y : Reg),
    (∀ chk, decodeWord chk (wordXYN 0x8 x y 0x1) = .ok (.orReg x y) ∧
      decodeWord chk (wordXYN 0x8 x y 0x2) = .ok (.andReg x y) ∧
      decodeWord chk (wordXYN 0x8 x y 0x3) = .ok (.xorReg x y)) ∧
    ∀ (s : State), ∃ o a e, LoadsRegister (.orReg x y) s x o ∧ LoadsRegister (.andReg x y) s x a ∧
      LoadsRegister (.xorReg x y) s x e ∧
      ∀ k < 8, o.getLsbD k = ((s.reg x).getLsbD k || (s.reg y).getLsbD k) ∧
        a.getLsbD k = ((s.reg x).getLsbD k && (s.reg y).getLsbD k) ∧
        e.getLsbD k = ((s.reg x).getLsbD k != (s.reg y).getLsbD k)

/-- Add (R466), with the write of R471 for every destination. For VF as the destination, every policy of R471 (D11, log
13). The encoding: D4, log 11. -/
def Obligations.AddSetsCarry : Prop :=
  ∀ (x y : Reg), (∀ chk, decodeWord chk (wordXYN 0x8 x y 0x4) = .ok (.addReg x y)) ∧
    ∀ (s : State), ∃ res f, WritesResultAndFlag (.addReg x y) s x res f f ∧
      res.toNat = ((s.reg x).toNat + (s.reg y).toNat) % 256 ∧
      (255 < (s.reg x).toNat + (s.reg y).toNat → f = 1#8) ∧
      ((s.reg x).toNat + (s.reg y).toNat ≤ 255 → f = 0#8)

/-- Sub and Subn (R467, R468), with the write of R471 for every destination. For VF as the destination, every policy of
R471 (D11, log 13). The encodings: D4, log 11. -/
def Obligations.SubtractsSetNoBorrow : Prop :=
  ∀ (x y : Reg),
    (∀ chk, decodeWord chk (wordXYN 0x8 x y 0x5) = .ok (.subReg x y)) ∧
    (∀ chk, decodeWord chk (wordXYN 0x8 x y 0x7) = .ok (.subnReg x y)) ∧
    ∀ (s : State),
      (∃ res f, WritesResultAndFlag (.subReg x y) s x res f f ∧
        res.toNat = ((s.reg x).toNat + 256 - (s.reg y).toNat) % 256 ∧
        ((s.reg y).toNat ≤ (s.reg x).toNat → f = 1#8) ∧ ((s.reg x).toNat < (s.reg y).toNat → f = 0#8)) ∧
      (∃ res f, WritesResultAndFlag (.subnReg x y) s x res f f ∧
        res.toNat = ((s.reg y).toNat + 256 - (s.reg x).toNat) % 256 ∧
        ((s.reg x).toNat ≤ (s.reg y).toNat → f = 1#8) ∧ ((s.reg y).toNat < (s.reg x).toNat → f = 0#8))

/-- ShiftRight and ShiftLeft (R469, R470), with the write of R471 for every destination; Vy plays no part. For VF as
the destination, every policy of R471 (D11, log 13). The encodings: D4, log 11. -/
def Obligations.ShiftsSetTheBitShiftedOut : Prop :=
  ∀ (x y : Reg),
    (∀ chk, decodeWord chk (wordXYN 0x8 x y 0x6) = .ok (.shiftRight x y)) ∧
    (∀ chk, decodeWord chk (wordXYN 0x8 x y 0xE) = .ok (.shiftLeft x y)) ∧
    ∀ (s : State),
      (∃ res f, WritesResultAndFlag (.shiftRight x y) s x res f 0#8 ∧
        res.toNat = (s.reg x).toNat / 2 ∧ f.toNat = (s.reg x).toNat % 2) ∧
      (∃ res f, WritesResultAndFlag (.shiftLeft x y) s x res f (BitVec.ofNat 8 (2 * f.toNat)) ∧
        res.toNat = 2 * (s.reg x).toNat % 256 ∧ f.toNat = (s.reg x).toNat / 128)

/-- The build's `VF_DEST_POLICY` plays a part in the five instructions of R471 with X = F only: every other
instruction does the same under every policy. The policy: D11, log 13. -/
def Obligations.VfDestPolicyMattersForVfOnly : Prop :=
  ∀ (i : Instr) (s : State) (p : VfDestPolicy), flagIntoVF i = false →
    ∃ t, exec i s = .next t ∧
      exec i { s with cfg := { s.cfg with vfDestPolicy := p } } =
        .next { t with cfg := { t.cfg with vfDestPolicy := p } }

/-! ### Index register and memory (44_index_memory.md) -/

/-- LoadIndex and AddIndex (R500, R501): I wraps modulo 65536, no flag, no fault. The encodings: D4, log 11. -/
def Obligations.IndexLoadsAndAdds : Prop :=
  ∀ (nnn : Addr) (x : Reg),
    (∀ chk, decodeWord chk (wordA 0xA nnn) = .ok (.loadIndex nnn)) ∧
    (∀ chk, decodeWord chk (wordXB 0xF x 0x1E#8) = .ok (.addIndex x)) ∧
    ∀ (s : State),
      (∃ t, exec (.loadIndex nnn) s = .next t ∧ t.pc = s.pc + 2 ∧ t.idx.toNat = nnn.toNat ∧
        SameExcept [.idx] [] s t) ∧
      (∃ t, exec (.addIndex x) s = .next t ∧ t.pc = s.pc + 2 ∧
        t.idx.toNat = (s.idx.toNat + (s.reg x).toNat) % 65536 ∧ SameExcept [.idx] [] s t)

/-- LocateSprite (R502): the glyph of a digit, and above 15 what the build's `FONT_ADDR_HIGH` gives, which by default
is the same formula. Above 15: D15, log 17. -/
def Obligations.LocateSpritePointsAtTheGlyph : Prop :=
  ∀ (x : Reg), (∀ chk, decodeWord chk (wordXB 0xF x 0x29#8) = .ok (.locateSprite x)) ∧
    ∀ (s : State), ∃ t, exec (.locateSprite x) s = .next t ∧ t.pc = s.pc + 2 ∧ SameExcept [.idx] [] s t ∧
      ((s.reg x).toNat ≤ 15 → t.idx.toNat = 0x50 + 5 * (s.reg x).toNat) ∧
      (15 < (s.reg x).toNat → t.idx = fontAddrHigh s.cfg (s.reg x)) ∧
      (s.cfg.fontAddrHigh = [] → t.idx.toNat = 0x50 + 5 * (s.reg x).toNat)

/-- LoadBcd (R503): the three digits at I, I + 1 and I + 2, every other byte as before; out of range it faults and
writes nothing. The fault: D10, log 19. -/
def Obligations.LoadBcdStoresTheDigits : Prop :=
  ∀ (x : Reg), (∀ chk, decodeWord chk (wordXB 0xF x 0x33#8) = .ok (.loadBcd x)) ∧
    ∀ (s : State), Memory.wf s.mem = true →
      (s.idx.toNat + 2 ≤ 4095 →
        ∃ t, exec (.loadBcd x) s = .next t ∧ t.pc = s.pc + 2 ∧ SameExcept [.mem] [] s t ∧
          (Memory.byte t.mem s.idx.toNat).toNat = (s.reg x).toNat / 100 ∧
          (Memory.byte t.mem (s.idx.toNat + 1)).toNat = (s.reg x).toNat / 10 % 10 ∧
          (Memory.byte t.mem (s.idx.toNat + 2)).toNat = (s.reg x).toNat % 10 ∧
          ∀ a, (a < s.idx.toNat ∨ s.idx.toNat + 2 < a) → Memory.byte t.mem a = Memory.byte s.mem a) ∧
      (4095 < s.idx.toNat + 2 → FaultsInExecute .boundsViolation (.loadBcd x) s)

/-- StoreRegisters (R504): V0 to Vx at I upward, every other byte as before; out of range it faults and writes
nothing. The fault: D10, log 19; I unchanged: D14, log 16. -/
def Obligations.StoreRegistersCopiesToMemory : Prop :=
  ∀ (x : Reg), (∀ chk, decodeWord chk (wordXB 0xF x 0x55#8) = .ok (.storeRegisters x)) ∧
    ∀ (s : State), Memory.wf s.mem = true →
      (s.idx.toNat + x.val ≤ 4095 →
        ∃ t, exec (.storeRegisters x) s = .next t ∧ t.pc = s.pc + 2 ∧ SameExcept [.mem] [] s t ∧
          (∀ k : Reg, k ≤ x → Memory.byte t.mem (s.idx.toNat + k.val) = s.reg k) ∧
          ∀ a, (a < s.idx.toNat ∨ s.idx.toNat + x.val < a) → Memory.byte t.mem a = Memory.byte s.mem a) ∧
      (4095 < s.idx.toNat + x.val → FaultsInExecute .boundsViolation (.storeRegisters x) s)

/-- ReadRegisters (R505): V0 to Vx from memory at I upward, the registers above x as before; out of range it faults
and writes nothing. The fault: D10, log 19; I unchanged: D14, log 16. -/
def Obligations.ReadRegistersCopiesFromMemory : Prop :=
  ∀ (x : Reg), (∀ chk, decodeWord chk (wordXB 0xF x 0x65#8) = .ok (.readRegisters x)) ∧
    ∀ (s : State),
      (s.idx.toNat + x.val ≤ 4095 →
        ∃ t, exec (.readRegisters x) s = .next t ∧ t.pc = s.pc + 2 ∧
          (∀ k : Reg, k ≤ x → t.reg k = Memory.byte s.mem (s.idx.toNat + k.val)) ∧
          SameExcept [] ((List.finRange 16).filter (· ≤ x)) s t) ∧
      (4095 < s.idx.toNat + x.val → FaultsInExecute .boundsViolation (.readRegisters x) s)

/-- A byte that StoreRegisters stores is what the very next fetch reads, if it lies at PC or PC + 1; the other byte
of the word is what memory held (R212, R714). Coherence: D24, log 22. -/
def Obligations.StoredInstructionIsFetchedNext : Prop :=
  ∀ (s : State) (x : Reg), Memory.wf s.mem = true → s.idx.toNat + x.val ≤ 4095 →
    (s.pc + 2).toNat ≤ 4094 →
    ∃ t w, exec (.storeRegisters x) s = .next t ∧ t.fetch = some w ∧
      (∀ k : Reg, k ≤ x → s.idx.toNat + k.val = (s.pc + 2).toNat → w.toNat / 256 = (s.reg k).toNat) ∧
      (∀ k : Reg, k ≤ x → s.idx.toNat + k.val = (s.pc + 2).toNat + 1 → w.toNat % 256 = (s.reg k).toNat) ∧
      ((∀ k : Reg, k ≤ x → s.idx.toNat + k.val ≠ (s.pc + 2).toNat) →
        w.toNat / 256 = (Memory.byte s.mem (s.pc + 2).toNat).toNat) ∧
      ((∀ k : Reg, k ≤ x → s.idx.toNat + k.val ≠ (s.pc + 2).toNat + 1) →
        w.toNat % 256 = (Memory.byte s.mem ((s.pc + 2).toNat + 1)).toNat)

/-! ### Display (45_display.md) -/

/-- The primitives `DispSet` (R530) and `DispClear` (R531). -/
def Obligations.DisplayPrimitives : Prop :=
  (∀ (d : Disp) (x y : Nat) (bit : Bool),
    ((dispSet d x y bit).2 = true ↔ d.get (x % 64) (y % 32) = true ∧ bit = true) ∧
    (dispSet d x y bit).1.get (x % 64) (y % 32) = (d.get (x % 64) (y % 32) != bit) ∧
    (∀ px < 64, ∀ py < 32, (px ≠ x % 64 ∨ py ≠ y % 32) → (dispSet d x y bit).1.get px py = d.get px py) ∧
    dispSet d x y false = (d, false)) ∧
  ∀ px < 64, ∀ py < 32, Disp.get dispClear px py = false

/-- Clear (R533). -/
def Obligations.ClearZeroesTheDisplay : Prop :=
  (∀ (chk : Bool), decodeWord chk 0x00E0#16 = .ok .clear) ∧
  ∀ (s : State), ∃ t, exec .clear s = .next t ∧ t.pc = s.pc + 2 ∧ SameExcept [.disp] [] s t ∧
    ∀ px < 64, ∀ py < 32, t.disp.get px py = false

/-- Draw (R534): exactly the covered pixels flip; VF is 1 if a covered pixel was lit, else 0; the coordinates are
those before VF is written; a sprite that leaves memory faults and changes nothing. The fault: D10, log 19; the order
of reads: D12, log 14; N = 0: D34, log 23. -/
def Obligations.DrawXorsTheSprite : Prop :=
  ∀ (x y : Reg) (n : Count), (∀ chk, decodeWord chk (wordXYN 0xD x y n) = .ok (.draw x y n)) ∧
    ∀ (s : State),
      (SpriteInMemory s n →
        ∃ t, exec (.draw x y n) s = .next t ∧ t.pc = s.pc + 2 ∧ SameExcept [.disp] [VF] s t ∧
          (∀ px < 64, ∀ py < 32, Covers s x y n px py → t.disp.get px py = !s.disp.get px py) ∧
          (∀ px < 64, ∀ py < 32, ¬ Covers s x y n px py → t.disp.get px py = s.disp.get px py) ∧
          (HitsLitPixel s x y n → t.reg VF = 1#8) ∧ (¬ HitsLitPixel s x y n → t.reg VF = 0#8)) ∧
      (¬ SpriteInMemory s n → FaultsInExecute .boundsViolation (.draw x y n) s)

/-- Drawing the same sprite twice puts the display back; on a clear display the second draw reports a collision exactly
when the sprite has a lit bit (R534, source example E6). X and Y are not VF, which the first draw writes. -/
def Obligations.DrawingTwiceErases : Prop :=
  ∀ (x y : Reg) (n : Count) (s : State), x ≠ VF → y ≠ VF → SpriteInMemory s n →
    ∃ t u, exec (.draw x y n) s = .next t ∧ exec (.draw x y n) t = .next u ∧ u.disp = s.disp ∧
      ((∀ px < 64, ∀ py < 32, s.disp.get px py = false) →
        t.reg VF = 0#8 ∧ ((∃ px py, Covers s x y n px py) → u.reg VF = 1#8) ∧
          ((¬ ∃ px py, Covers s x y n px py) → u.reg VF = 0#8))

/-! ### Timers, key wait, random (46_timer_key_random.md) -/

/-- The timer transfers, in part 4 of the step (R560, R561, R562). The directions: D31, log 11. -/
def Obligations.TimerTransfers : Prop :=
  ∀ (x : Reg),
    (∀ chk, decodeWord chk (wordXB 0xF x 0x07#8) = .ok (.delayTimerLoadFrom x) ∧
      decodeWord chk (wordXB 0xF x 0x15#8) = .ok (.delayTimerLoadInto x) ∧
      decodeWord chk (wordXB 0xF x 0x18#8) = .ok (.soundLoad x)) ∧
    ∀ (s : State), LoadsRegister (.delayTimerLoadFrom x) s x s.dt ∧
      (∃ t, exec (.delayTimerLoadInto x) s = .next t ∧ t.pc = s.pc + 2 ∧ t.dt = s.reg x ∧
        SameExcept [.dt] [] s t) ∧
      ∃ t, exec (.soundLoad x) s = .next t ∧ t.pc = s.pc + 2 ∧ t.st = s.reg x ∧ SameExcept [.st] [] s t

/-- The timer transfers over the whole step: the decrement of the same step follows the transfer (R711, R407). The
spec derives R711 from R407 and R630. -/
def Obligations.TransferThenDecrement : Prop :=
  ∀ (s : State) (w : Word) (x : Reg), s.sample.presentOk = true →
    (AtInstruction s w (.delayTimerLoadFrom x) →
      ∃ t, step s = .next t ∧ t.reg x = s.dt ∧ t.dt.toNat = s.dt.toNat - 1) ∧
    (AtInstruction s w (.delayTimerLoadInto x) →
      ∃ t, step s = .next t ∧ t.dt.toNat = (s.reg x).toNat - 1 ∧ t.st.toNat = s.st.toNat - 1) ∧
    (AtInstruction s w (.soundLoad x) →
      ∃ t, step s = .next t ∧ t.st.toNat = (s.reg x).toNat - 1 ∧ t.dt.toNat = s.dt.toNat - 1)

/-- KeyLoad (R563): without a key PC ends up where it was, and the step is a full one, after which the same instruction
is fetched again; with one the key goes to Vx. The encoding: D4, log 11; stop and timers of the whole step: D25, D26,
log 21. -/
def Obligations.KeyLoadWaitsOrStores : Prop :=
  ∀ (x : Reg), (∀ chk, decodeWord chk (wordXB 0xF x 0x0A#8) = .ok (.keyLoad x)) ∧
    ∀ (s : State),
      (s.sample.availKey = none →
        ∃ t, exec (.keyLoad x) s = .next t ∧ t.pc = s.pc ∧ SameExcept [] [] s t) ∧
      (∀ w, AtInstruction s w (.keyLoad x) → s.sample.availKey = none → s.sample.presentOk = true →
        ∃ t, step s = .next t ∧ t.pc = s.pc ∧ t.fetch = some w ∧ t.v = s.v ∧ t.frame = some s.disp ∧
          t.dt.toNat = s.dt.toNat - 1 ∧ t.st.toNat = s.st.toNat - 1 ∧
          t.status = if s.sample.running then .running else .stopped) ∧
      ∀ k : Key, s.sample.availKey = some k → LoadsRegister (.keyLoad x) s x (BitVec.ofNat 8 k.val)

/-- While no key is available and the environment lets the run go on, any number of steps leaves the block at the key
load: each delivers the frame and decrements the timers, and nothing else changes (R410, R563, R712). Stop and
present: D25, D26, log 21. -/
def Obligations.KeyWaitHoldsTheBlock : Prop :=
  ∀ (k : Nat) (s : State) (w : Word) (x : Reg), AtInstruction s w (.keyLoad x) → k ≤ s.inputs.length →
    (∀ inp ∈ s.inputs.take k, inp.availKey = none ∧ GoesOn inp) →
    ∃ t, Reaches k s t ∧ t.pc = s.pc ∧ AtInstruction t w (.keyLoad x) ∧ t.v = s.v ∧ t.idx = s.idx ∧
      t.stack = s.stack ∧ t.mem = s.mem ∧ t.disp = s.disp ∧ t.rngN = s.rngN ∧
      t.dt.toNat = s.dt.toNat - k ∧ t.st.toNat = s.st.toNat - k ∧ (0 < k → t.frame = some s.disp)

/-- Random (R564, R565): the next byte of the sequence, masked, and one byte used up whatever the mask. One byte for
every draw: D16, log 28; the bytes are free: log 3. -/
def Obligations.RandomMasksTheNextByte : Prop :=
  ∀ (x : Reg) (nn : Byte), (∀ chk, decodeWord chk (wordXB 0xC x nn) = .ok (.random x nn)) ∧
    ∀ (s : State), ∃ t, exec (.random x nn) s = .next t ∧ t.pc = s.pc + 2 ∧ t.rngN = s.rngN + 1 ∧
      (∀ k < 8, (t.reg x).getLsbD k = ((Config.rngStream s.rngN).getLsbD k && nn.getLsbD k)) ∧
      SameExcept [.rngN] [x] s t

/-! ### The step (40_cycle.md, 60_exceptions.md) -/

/-- A step of a running block runs the instruction that the word at PC decodes to, from the state with no frame
delivered yet; after it come, if it raised no fault, the frame, the check of `present_ok`, the timers and the check
of `running` (R400, R404 to R409). Stop and present: D25, D26, log 21; frame and inputs as fields: logs 4, 5. -/
def Obligations.StepRunsTheDecodedInstruction : Prop :=
  ∀ (s : State) (w : Word) (i : Instr), AtInstruction s w i →
    ∃ u, exec i { s with frame := none } = .next u ∧
      (u.status ≠ .running → step s = .next (sampleUsed u)) ∧
      (u.status = .running → s.sample.presentOk = false → step s = .next (sampleUsed { u with
        frame := some u.disp
        status := .faulted { cause := .presentFailure, pc := s.pc, word := some w } })) ∧
      (u.status = .running → s.sample.presentOk = true → step s = .next (sampleUsed { u with
        frame := some u.disp
        dt := BitVec.ofNat 8 (u.dt.toNat - 1)
        st := BitVec.ofNat 8 (u.st.toNat - 1)
        status := if s.sample.running then .running else .stopped }))

/-- The fetch reads the bytes at PC and PC + 1, the first in the high half, for every PC up to 4094, even or odd
(R202, R203). No alignment: D23, log 22. -/
def Obligations.FetchIsBigEndian : Prop :=
  ∀ (s : State), s.pc.toNat ≤ 4094 → ∃ w, s.fetch = some w ∧
    w.toNat = 256 * (Memory.byte s.mem s.pc.toNat).toNat + (Memory.byte s.mem (s.pc.toNat + 1)).toNat

/-- A fetch above 4094 ends the step in `BoundsViolation` with no word in the record, and nothing else of the block
changes (R401). The fault: D10, log 19. -/
def Obligations.FetchPastMemoryFaults : Prop :=
  ∀ (s : State), s.status = .running → 4094 < s.pc.toNat →
    step s = .next (sampleUsed { s with
      frame := none
      status := .faulted { cause := .boundsViolation, pc := s.pc, word := none } })

/-- A word that decodes to nothing ends the step in `DecodeFailure`, and a machine call in `MachineCall`, both before
the PC advance, with the address and the word in the record and nothing else of the block changed (R402). MachineCall
in the decode part: D7, log 20. -/
def Obligations.UndecodableWordFaults : Prop :=
  ∀ (s : State) (w : Word), s.status = .running → s.fetch = some w →
    ((∃ e, decodeWord s.cfg.lowNibbleCheck59 w = .error e) →
      step s = .next (sampleUsed { s with
        frame := none
        status := .faulted { cause := .decodeFailure, pc := s.pc, word := some w } })) ∧
    ((∃ nnn, decodeWord s.cfg.lowNibbleCheck59 w = .ok (.machineCall nnn)) →
      step s = .next (sampleUsed { s with
        frame := none
        status := .faulted { cause := .machineCall, pc := s.pc, word := some w } }))

/-- Exactly a running block has a step (R112, R400). That the missing step is a host-level fault is the model's choice
(assumption log 1). -/
def Obligations.OnlyARunningBlockSteps : Prop :=
  ∀ (s : State), (s.status = .running ↔ ∃ t, step s = .next t) ∧
    (s.status = .stopped → step s = .fault .runStopped) ∧
    (∀ r, s.status = .faulted r → step s = .fault (.runFaulted r))

/-- The timer decrementer (R630): each timer falls by one with a floor at 0, independently; and part 6 of every step
that gets there applies it once, after the frame, whatever the instruction. -/
def Obligations.TimersFallWithAFloor : Prop :=
  (∀ (s : State), s.tick.dt.toNat = s.dt.toNat - 1 ∧ s.tick.st.toNat = s.st.toNat - 1 ∧
    s.tick = { s with dt := s.tick.dt, st := s.tick.st }) ∧
  ∀ (s : State) (w : Word) (i : Instr), AtInstruction s w i → s.sample.presentOk = true →
    ∃ u, exec i { s with frame := none } = .next u ∧ (u.status = .running →
      ∃ t, step s = .next t ∧ t.frame = some u.disp ∧ t.dt = u.tick.dt ∧ t.st = u.tick.st)

/-- Over every step that completes, whatever its instruction, a timer that the instruction does not load falls by
one, with a floor at 0 (R407, R712). Timers in the stopping step: D25, log 21. -/
def Obligations.TimersCountSteps : Prop :=
  ∀ (s t : State) (w : Word) (i : Instr), AtInstruction s w i → step s = .next t →
    (∀ r, t.status ≠ .faulted r) →
    ((∀ x, i ≠ .delayTimerLoadInto x) → t.dt.toNat = s.dt.toNat - 1) ∧
    ((∀ x, i ≠ .soundLoad x) → t.st.toNat = s.st.toNat - 1)

/-- Faults are precise (R602, R409, R611). A step that ends in a fault has recorded the address it fetched from;
unless the cause is `PresentFailure` no frame is delivered and all that changes besides the status is PC, which is
where it was for a fault of fetch or decode and two further for a fault of an instruction; and for `PresentFailure`
the instruction has completed. Precision: D9, log 1. -/
def Obligations.FaultsArePrecise : Prop :=
  ∀ (s t : State) (r : FaultRecord), step s = .next t → t.status = .faulted r →
    r.pc = s.pc ∧
    (r.cause ≠ .presentFailure → ∃ pc, t = sampleUsed { s with frame := none, status := .faulted r, pc := pc } ∧
      (r.word = none ∨ r.cause = .decodeFailure ∨ r.cause = .machineCall → pc = s.pc) ∧
      (r.word ≠ none ∧ r.cause ≠ .decodeFailure ∧ r.cause ≠ .machineCall → pc = s.pc + 2)) ∧
    (r.cause = .presentFailure → s.sample.presentOk = false ∧
      ∃ w i u, AtInstruction s w i ∧ r.word = some w ∧ exec i { s with frame := none } = .next u ∧
        u.status = .running ∧ t = sampleUsed { u with frame := some u.disp, status := .faulted r })

/-- A fault of an instruction never shows at the wrong one: which causes an instruction can raise (R600, R611). The
causes: D8, D10, D17, D29, logs 18 to 20. -/
def Obligations.EachInstructionHasItsCause : Prop :=
  ∀ (i : Instr) (s t : State) (r : FaultRecord), s.status = .running → exec i s = .next t →
    t.status = .faulted r → r.pc = s.pc ∧ r.word = some (encode i) ∧
      ((i = .ret ∧ r.cause = .stackUnderflow) ∨ (∃ nnn, i = .call nnn ∧ r.cause = .stackOverflow) ∨
        (∃ nnn, i = .machineCall nnn ∧ r.cause = .machineCall) ∨
        (r.cause = .boundsViolation ∧ ((∃ x y n, i = .draw x y n) ∨ ∃ x, i = .loadBcd x ∨ i = .storeRegisters x ∨
          i = .readRegisters x)))

/-! ### Rules of the whole machine -/

/-- Every step keeps memory in its canonical form inside 0..4095, PC at most 0x10FE, the return addresses in 0x002 to
0x1000, and the call stack within `STACK_DEPTH` (R103, R106, R200, R420). The range of PC is the spec's inference in
R103; the form of memory is the model's, log 8. -/
def Obligations.EveryStepKeepsTheInvariant : Prop := ∀ (s t : State), s.Inv → step s = .next t → t.Inv

/-- The state at reset meets the invariant. Reset values: D18 to D20, logs 6 to 8. -/
def Obligations.ResetMeetsTheInvariant : Prop := State.reset.Inv

/-- Which instructions write which part of the state in part 4 (R105 to R111, R116): the parts not named here are
written by no instruction at all, and a part is written by the named instructions only. FX55 and FX65 leave I: D14,
log 16. -/
def Obligations.EachPartHasItsWriters : Prop :=
  ∀ (i : Instr) (s t : State), exec i s = .next t →
    (t.idx ≠ s.idx → (∃ nnn, i = .loadIndex nnn) ∨ ∃ x, i = .addIndex x ∨ i = .locateSprite x) ∧
    (t.stack ≠ s.stack → i = .ret ∨ ∃ nnn, i = .call nnn) ∧
    (t.dt ≠ s.dt → ∃ x, i = .delayTimerLoadInto x) ∧
    (t.st ≠ s.st → ∃ x, i = .soundLoad x) ∧
    (t.mem ≠ s.mem → ∃ x, i = .loadBcd x ∨ i = .storeRegisters x) ∧
    (t.disp ≠ s.disp → i = .clear ∨ ∃ x y n, i = .draw x y n) ∧
    (t.rngN ≠ s.rngN → ∃ x nn, i = .random x nn) ∧
    t.frame = s.frame ∧ t.inputs = s.inputs ∧ t.inputNo = s.inputNo ∧ t.cfg = s.cfg

/-- The access table of R102: an instruction writes no register outside its column "writes", a key load without a key
none at all, and what an instruction does depends on no register outside its column "reads". From two states that differ in such registers only, it goes to two states that
differ in registers only, each register either written alike in both or left alone in both. -/
def Obligations.RegisterAccessTable : Prop :=
  ∀ (i : Instr) (s : State),
    (∃ t, exec i s = .next t ∧ (∀ r, r ∉ writesRegs i → t.reg r = s.reg r) ∧
      ∀ x, i = .keyLoad x → s.sample.availKey = none → t.v = s.v) ∧
    ∀ (v : Vector Byte 16), (∀ r ∈ readsRegs i, v[r.val] = s.reg r) →
      ∃ t t', exec i s = .next t ∧ exec i { s with v := v } = .next t' ∧ t' = { t with v := t'.v } ∧
        ∀ r, t'.reg r = t.reg r ∨ (t.reg r = s.reg r ∧ t'.reg r = v[r.val])

/-- An instruction that reads no key does the same whatever the inputs of the step are (R113). Inputs as state: D2,
log 4. -/
def Obligations.OnlyKeyInstructionsReadInputs : Prop :=
  ∀ (i : Instr) (s : State) (inputs : List Inputs) (n : Nat), readsKeys i = false →
    ∃ t, exec i s = .next t ∧
      exec i { s with inputs := inputs, inputNo := n } = .next { t with inputs := inputs, inputNo := n }

/-! ### Reset (70_reset_and_hazards.md) -/

/-- The state at reset (R700) as this block has it, without a ROM image; the font bytes are the spec's default (R118,
assumption log 10). V and I: D19, log 6; PC: D18, log 7; memory: D20, log 8; display: D21, log 9. -/
def Obligations.ResetState : Prop :=
  (∀ r, State.reset.reg r = 0#8) ∧ State.reset.idx = 0#16 ∧ State.reset.pc = 0x200#16 ∧ State.reset.stack = [] ∧
    State.reset.dt = 255#8 ∧ State.reset.st = 255#8 ∧ State.reset.rngN = 0 ∧ State.reset.status = .running ∧
    (∀ px < 64, ∀ py < 32, State.reset.disp.get px py = false) ∧
    ∀ a, Memory.byte State.reset.mem a = if 0x50 ≤ a ∧ a < 0xA0 then fontData.getD (a - 0x50) 0#8 else 0#8

/-- Launching a ROM image of at most 3584 bytes, in any build and with any font data, gives the state of R700 with
byte j of the image at 0x200 + j and 0 in every byte of no region, and it meets the invariant; a longer image has no
launch (R700, R701, R702). Reset values: D18 to D21, logs 6 to 9; a longer image: D32, log 27. -/
def Obligations.LaunchLoadsFontAndRom : Prop :=
  ∀ (cfg : Config) (font : Vector Byte 80) (rom : List Byte) (inputs : List Inputs),
    (rom.length ≤ 3584 → ∃ t, launch cfg font rom inputs = .next t ∧ t.Inv ∧ t.cfg = cfg ∧ t.inputs = inputs ∧
      (∀ r, t.reg r = 0#8) ∧ t.idx = 0#16 ∧ t.pc = 0x200#16 ∧ t.stack = [] ∧ t.dt = 255#8 ∧ t.st = 255#8 ∧
      (∀ px < 64, ∀ py < 32, t.disp.get px py = false) ∧ t.rngN = 0 ∧ t.status = .running ∧
      ∀ a < 4096, Memory.byte t.mem a =
        if 0x50 ≤ a ∧ a < 0xA0 then font.toList.getD (a - 0x50) 0#8
        else if 0x200 ≤ a then rom.getD (a - 0x200) 0#8
        else 0#8) ∧
    (3584 < rom.length → launch cfg font rom inputs = .refused .oversizedRom)
end

