-- ==== Sys2Proof/Laws/Decode.lean ====
section
/-! SUPPORT. The fields of a word, read back from each format, and the two bytes of a word put together again. -/

namespace Sys2Proof

theorem wordA_toNat {f : Nat} (hf : f < 16) (nnn : Addr) : (wordA f nnn).toNat = f * 4096 + nnn.toNat := by
  have := nnn.isLt
  simp only [wordA, BitVec.toNat_ofNat]
  omega

theorem wordXB_toNat {f : Nat} (hf : f < 16) (x : Reg) (nn : Byte) :
    (wordXB f x nn).toNat = f * 4096 + x.val * 256 + nn.toNat := by
  have := nn.isLt
  have := x.isLt
  simp only [wordXB, BitVec.toNat_ofNat]
  omega

theorem wordXYN_toNat {f : Nat} (hf : f < 16) (x y : Reg) (n : Fin 16) :
    (wordXYN f x y n).toNat = f * 4096 + x.val * 256 + y.val * 16 + n.val := by
  have := x.isLt
  have := y.isLt
  have := n.isLt
  simp only [wordXYN, BitVec.toNat_ofNat]
  omega

theorem fieldF_wordA {f : Nat} (hf : f < 16) (nnn : Addr) : (fieldF (wordA f nnn)).val = f := by
  have := nnn.isLt
  simp only [fieldF, wordA_toNat hf, Fin.val_ofNat]
  omega

theorem fieldNNN_wordA {f : Nat} (hf : f < 16) (nnn : Addr) : fieldNNN (wordA f nnn) = nnn := by
  have := nnn.isLt
  apply BitVec.eq_of_toNat_eq
  simp only [fieldNNN, BitVec.toNat_setWidth, wordA_toNat hf]
  omega

theorem fieldF_wordXB {f : Nat} (hf : f < 16) (x : Reg) (nn : Byte) : (fieldF (wordXB f x nn)).val = f := by
  have := nn.isLt
  have := x.isLt
  simp only [fieldF, wordXB_toNat hf, Fin.val_ofNat]
  omega

theorem fieldX_wordXB {f : Nat} (hf : f < 16) (x : Reg) (nn : Byte) : fieldX (wordXB f x nn) = x := by
  have := nn.isLt
  have := x.isLt
  apply Fin.ext
  simp only [fieldX, wordXB_toNat hf, Fin.val_ofNat]
  omega

theorem fieldNN_wordXB {f : Nat} (hf : f < 16) (x : Reg) (nn : Byte) : fieldNN (wordXB f x nn) = nn := by
  have := nn.isLt
  apply BitVec.eq_of_toNat_eq
  simp only [fieldNN, BitVec.toNat_setWidth, wordXB_toNat hf]
  omega

theorem fieldF_wordXYN {f : Nat} (hf : f < 16) (x y : Reg) (n : Fin 16) : (fieldF (wordXYN f x y n)).val = f := by
  have := x.isLt
  have := y.isLt
  have := n.isLt
  simp only [fieldF, wordXYN_toNat hf, Fin.val_ofNat]
  omega

theorem fieldX_wordXYN {f : Nat} (hf : f < 16) (x y : Reg) (n : Fin 16) : fieldX (wordXYN f x y n) = x := by
  have := x.isLt
  have := y.isLt
  have := n.isLt
  apply Fin.ext
  simp only [fieldX, wordXYN_toNat hf, Fin.val_ofNat]
  omega

theorem fieldY_wordXYN {f : Nat} (hf : f < 16) (x y : Reg) (n : Fin 16) : fieldY (wordXYN f x y n) = y := by
  have := x.isLt
  have := y.isLt
  have := n.isLt
  apply Fin.ext
  simp only [fieldY, wordXYN_toNat hf, Fin.val_ofNat]
  omega

theorem fieldN_wordXYN {f : Nat} (hf : f < 16) (x y : Reg) (n : Fin 16) : fieldN (wordXYN f x y n) = n := by
  have := x.isLt
  have := y.isLt
  have := n.isLt
  apply Fin.ext
  simp only [fieldN, wordXYN_toNat hf, Fin.val_ofNat]
  omega

/-- The four fields determine the word (R301). -/
theorem fields_toNat (w : Word) :
    w.toNat = (fieldF w).val * 4096 + (fieldX w).val * 256 + (fieldY w).val * 16 + (fieldN w).val := by
  have := w.isLt
  simp only [fieldF, fieldX, fieldY, fieldN, Fin.val_ofNat]
  omega

theorem bigEndian_highByte_lowByte (w : Word) : bigEndian (highByte w) (lowByte w) = w := by
  have h := w.isLt
  apply BitVec.eq_of_toNat_eq
  have h2 : (lowByte w).toNat < 256 := (lowByte w).isLt
  simp only [bigEndian, BitVec.toNat_append]
  rw [← Nat.shiftLeft_add_eq_or_of_lt (by omega), Nat.shiftLeft_eq]
  simp only [highByte, lowByte, BitVec.toNat_ofNat, BitVec.toNat_setWidth]
  omega

end Sys2Proof
end

