-- ==== Sys2Proof/Laws/State.lean ====
section
/-! SUPPORT. What each state update does to each field: one lemma per field per update, all by definition. -/

namespace Sys2Proof.Machine

variable (s : State)

/-! ### setReg -/

@[simp] theorem State.setReg_v (x : Reg) (b : Byte) : (s.setReg x b).v = s.v.set x.val b := rfl
@[simp] theorem State.setReg_pc (x : Reg) (b : Byte) : (s.setReg x b).pc = s.pc := rfl
@[simp] theorem State.setReg_idx (x : Reg) (b : Byte) : (s.setReg x b).idx = s.idx := rfl
@[simp] theorem State.setReg_stack (x : Reg) (b : Byte) : (s.setReg x b).stack = s.stack := rfl
@[simp] theorem State.setReg_dt (x : Reg) (b : Byte) : (s.setReg x b).dt = s.dt := rfl
@[simp] theorem State.setReg_st (x : Reg) (b : Byte) : (s.setReg x b).st = s.st := rfl
@[simp] theorem State.setReg_mem (x : Reg) (b : Byte) : (s.setReg x b).mem = s.mem := rfl
@[simp] theorem State.setReg_disp (x : Reg) (b : Byte) : (s.setReg x b).disp = s.disp := rfl
@[simp] theorem State.setReg_rngN (x : Reg) (b : Byte) : (s.setReg x b).rngN = s.rngN := rfl
@[simp] theorem State.setReg_status (x : Reg) (b : Byte) : (s.setReg x b).status = s.status := rfl
@[simp] theorem State.setReg_frame (x : Reg) (b : Byte) : (s.setReg x b).frame = s.frame := rfl
@[simp] theorem State.setReg_inputs (x : Reg) (b : Byte) : (s.setReg x b).inputs = s.inputs := rfl
@[simp] theorem State.setReg_inputNo (x : Reg) (b : Byte) : (s.setReg x b).inputNo = s.inputNo := rfl
@[simp] theorem State.setReg_cfg (x : Reg) (b : Byte) : (s.setReg x b).cfg = s.cfg := rfl

/-! ### setPc -/

@[simp] theorem State.setPc_v (w : Word) : (s.setPc w).v = s.v := rfl
@[simp] theorem State.setPc_pc (w : Word) : (s.setPc w).pc = w := rfl
@[simp] theorem State.setPc_idx (w : Word) : (s.setPc w).idx = s.idx := rfl
@[simp] theorem State.setPc_stack (w : Word) : (s.setPc w).stack = s.stack := rfl
@[simp] theorem State.setPc_dt (w : Word) : (s.setPc w).dt = s.dt := rfl
@[simp] theorem State.setPc_st (w : Word) : (s.setPc w).st = s.st := rfl
@[simp] theorem State.setPc_mem (w : Word) : (s.setPc w).mem = s.mem := rfl
@[simp] theorem State.setPc_disp (w : Word) : (s.setPc w).disp = s.disp := rfl
@[simp] theorem State.setPc_rngN (w : Word) : (s.setPc w).rngN = s.rngN := rfl
@[simp] theorem State.setPc_status (w : Word) : (s.setPc w).status = s.status := rfl
@[simp] theorem State.setPc_frame (w : Word) : (s.setPc w).frame = s.frame := rfl
@[simp] theorem State.setPc_inputs (w : Word) : (s.setPc w).inputs = s.inputs := rfl
@[simp] theorem State.setPc_inputNo (w : Word) : (s.setPc w).inputNo = s.inputNo := rfl
@[simp] theorem State.setPc_cfg (w : Word) : (s.setPc w).cfg = s.cfg := rfl
@[simp] theorem State.setPc_reg (w : Word) (r : Reg) : (s.setPc w).reg r = s.reg r := rfl

/-! ### setIdx -/

@[simp] theorem State.setIdx_v (w : Word) : (s.setIdx w).v = s.v := rfl
@[simp] theorem State.setIdx_pc (w : Word) : (s.setIdx w).pc = s.pc := rfl
@[simp] theorem State.setIdx_idx (w : Word) : (s.setIdx w).idx = w := rfl
@[simp] theorem State.setIdx_stack (w : Word) : (s.setIdx w).stack = s.stack := rfl
@[simp] theorem State.setIdx_dt (w : Word) : (s.setIdx w).dt = s.dt := rfl
@[simp] theorem State.setIdx_st (w : Word) : (s.setIdx w).st = s.st := rfl
@[simp] theorem State.setIdx_mem (w : Word) : (s.setIdx w).mem = s.mem := rfl
@[simp] theorem State.setIdx_disp (w : Word) : (s.setIdx w).disp = s.disp := rfl
@[simp] theorem State.setIdx_rngN (w : Word) : (s.setIdx w).rngN = s.rngN := rfl
@[simp] theorem State.setIdx_status (w : Word) : (s.setIdx w).status = s.status := rfl
@[simp] theorem State.setIdx_frame (w : Word) : (s.setIdx w).frame = s.frame := rfl
@[simp] theorem State.setIdx_inputs (w : Word) : (s.setIdx w).inputs = s.inputs := rfl
@[simp] theorem State.setIdx_inputNo (w : Word) : (s.setIdx w).inputNo = s.inputNo := rfl
@[simp] theorem State.setIdx_cfg (w : Word) : (s.setIdx w).cfg = s.cfg := rfl
@[simp] theorem State.setIdx_reg (w : Word) (r : Reg) : (s.setIdx w).reg r = s.reg r := rfl

/-! ### setDt -/

@[simp] theorem State.setDt_v (b : Byte) : (s.setDt b).v = s.v := rfl
@[simp] theorem State.setDt_pc (b : Byte) : (s.setDt b).pc = s.pc := rfl
@[simp] theorem State.setDt_idx (b : Byte) : (s.setDt b).idx = s.idx := rfl
@[simp] theorem State.setDt_stack (b : Byte) : (s.setDt b).stack = s.stack := rfl
@[simp] theorem State.setDt_dt (b : Byte) : (s.setDt b).dt = b := rfl
@[simp] theorem State.setDt_st (b : Byte) : (s.setDt b).st = s.st := rfl
@[simp] theorem State.setDt_mem (b : Byte) : (s.setDt b).mem = s.mem := rfl
@[simp] theorem State.setDt_disp (b : Byte) : (s.setDt b).disp = s.disp := rfl
@[simp] theorem State.setDt_rngN (b : Byte) : (s.setDt b).rngN = s.rngN := rfl
@[simp] theorem State.setDt_status (b : Byte) : (s.setDt b).status = s.status := rfl
@[simp] theorem State.setDt_frame (b : Byte) : (s.setDt b).frame = s.frame := rfl
@[simp] theorem State.setDt_inputs (b : Byte) : (s.setDt b).inputs = s.inputs := rfl
@[simp] theorem State.setDt_inputNo (b : Byte) : (s.setDt b).inputNo = s.inputNo := rfl
@[simp] theorem State.setDt_cfg (b : Byte) : (s.setDt b).cfg = s.cfg := rfl
@[simp] theorem State.setDt_reg (b : Byte) (r : Reg) : (s.setDt b).reg r = s.reg r := rfl

/-! ### setSt -/

@[simp] theorem State.setSt_v (b : Byte) : (s.setSt b).v = s.v := rfl
@[simp] theorem State.setSt_pc (b : Byte) : (s.setSt b).pc = s.pc := rfl
@[simp] theorem State.setSt_idx (b : Byte) : (s.setSt b).idx = s.idx := rfl
@[simp] theorem State.setSt_stack (b : Byte) : (s.setSt b).stack = s.stack := rfl
@[simp] theorem State.setSt_dt (b : Byte) : (s.setSt b).dt = s.dt := rfl
@[simp] theorem State.setSt_st (b : Byte) : (s.setSt b).st = b := rfl
@[simp] theorem State.setSt_mem (b : Byte) : (s.setSt b).mem = s.mem := rfl
@[simp] theorem State.setSt_disp (b : Byte) : (s.setSt b).disp = s.disp := rfl
@[simp] theorem State.setSt_rngN (b : Byte) : (s.setSt b).rngN = s.rngN := rfl
@[simp] theorem State.setSt_status (b : Byte) : (s.setSt b).status = s.status := rfl
@[simp] theorem State.setSt_frame (b : Byte) : (s.setSt b).frame = s.frame := rfl
@[simp] theorem State.setSt_inputs (b : Byte) : (s.setSt b).inputs = s.inputs := rfl
@[simp] theorem State.setSt_inputNo (b : Byte) : (s.setSt b).inputNo = s.inputNo := rfl
@[simp] theorem State.setSt_cfg (b : Byte) : (s.setSt b).cfg = s.cfg := rfl
@[simp] theorem State.setSt_reg (b : Byte) (r : Reg) : (s.setSt b).reg r = s.reg r := rfl

/-! ### advance -/

@[simp] theorem State.advance_v : s.advance.v = s.v := rfl
@[simp] theorem State.advance_pc : s.advance.pc = s.pc + 2 := rfl
@[simp] theorem State.advance_idx : s.advance.idx = s.idx := rfl
@[simp] theorem State.advance_stack : s.advance.stack = s.stack := rfl
@[simp] theorem State.advance_dt : s.advance.dt = s.dt := rfl
@[simp] theorem State.advance_st : s.advance.st = s.st := rfl
@[simp] theorem State.advance_mem : s.advance.mem = s.mem := rfl
@[simp] theorem State.advance_disp : s.advance.disp = s.disp := rfl
@[simp] theorem State.advance_rngN : s.advance.rngN = s.rngN := rfl
@[simp] theorem State.advance_status : s.advance.status = s.status := rfl
@[simp] theorem State.advance_frame : s.advance.frame = s.frame := rfl
@[simp] theorem State.advance_inputs : s.advance.inputs = s.inputs := rfl
@[simp] theorem State.advance_inputNo : s.advance.inputNo = s.inputNo := rfl
@[simp] theorem State.advance_cfg : s.advance.cfg = s.cfg := rfl
@[simp] theorem State.advance_reg (r : Reg) : s.advance.reg r = s.reg r := rfl

/-! ### rewind -/

@[simp] theorem State.rewind_v : s.rewind.v = s.v := rfl
@[simp] theorem State.rewind_pc : s.rewind.pc = s.pc - 2 := rfl
@[simp] theorem State.rewind_idx : s.rewind.idx = s.idx := rfl
@[simp] theorem State.rewind_stack : s.rewind.stack = s.stack := rfl
@[simp] theorem State.rewind_dt : s.rewind.dt = s.dt := rfl
@[simp] theorem State.rewind_st : s.rewind.st = s.st := rfl
@[simp] theorem State.rewind_mem : s.rewind.mem = s.mem := rfl
@[simp] theorem State.rewind_disp : s.rewind.disp = s.disp := rfl
@[simp] theorem State.rewind_rngN : s.rewind.rngN = s.rngN := rfl
@[simp] theorem State.rewind_status : s.rewind.status = s.status := rfl
@[simp] theorem State.rewind_frame : s.rewind.frame = s.frame := rfl
@[simp] theorem State.rewind_inputs : s.rewind.inputs = s.inputs := rfl
@[simp] theorem State.rewind_inputNo : s.rewind.inputNo = s.inputNo := rfl
@[simp] theorem State.rewind_cfg : s.rewind.cfg = s.cfg := rfl
@[simp] theorem State.rewind_reg (r : Reg) : s.rewind.reg r = s.reg r := rfl

/-! ### setRegs -/

@[simp] theorem State.setRegs_v (bs : List Byte) : (s.setRegs bs).v = setRegsFrom 0 bs s.v := rfl
@[simp] theorem State.setRegs_pc (bs : List Byte) : (s.setRegs bs).pc = s.pc := rfl
@[simp] theorem State.setRegs_idx (bs : List Byte) : (s.setRegs bs).idx = s.idx := rfl
@[simp] theorem State.setRegs_stack (bs : List Byte) : (s.setRegs bs).stack = s.stack := rfl
@[simp] theorem State.setRegs_dt (bs : List Byte) : (s.setRegs bs).dt = s.dt := rfl
@[simp] theorem State.setRegs_st (bs : List Byte) : (s.setRegs bs).st = s.st := rfl
@[simp] theorem State.setRegs_mem (bs : List Byte) : (s.setRegs bs).mem = s.mem := rfl
@[simp] theorem State.setRegs_disp (bs : List Byte) : (s.setRegs bs).disp = s.disp := rfl
@[simp] theorem State.setRegs_rngN (bs : List Byte) : (s.setRegs bs).rngN = s.rngN := rfl
@[simp] theorem State.setRegs_status (bs : List Byte) : (s.setRegs bs).status = s.status := rfl
@[simp] theorem State.setRegs_frame (bs : List Byte) : (s.setRegs bs).frame = s.frame := rfl
@[simp] theorem State.setRegs_inputs (bs : List Byte) : (s.setRegs bs).inputs = s.inputs := rfl
@[simp] theorem State.setRegs_inputNo (bs : List Byte) : (s.setRegs bs).inputNo = s.inputNo := rfl
@[simp] theorem State.setRegs_cfg (bs : List Byte) : (s.setRegs bs).cfg = s.cfg := rfl

/-! ### push -/

@[simp] theorem State.push_v (w : Word) : (s.push w).v = s.v := rfl
@[simp] theorem State.push_pc (w : Word) : (s.push w).pc = s.pc := rfl
@[simp] theorem State.push_idx (w : Word) : (s.push w).idx = s.idx := rfl
@[simp] theorem State.push_stack (w : Word) : (s.push w).stack = w :: s.stack := rfl
@[simp] theorem State.push_dt (w : Word) : (s.push w).dt = s.dt := rfl
@[simp] theorem State.push_st (w : Word) : (s.push w).st = s.st := rfl
@[simp] theorem State.push_mem (w : Word) : (s.push w).mem = s.mem := rfl
@[simp] theorem State.push_disp (w : Word) : (s.push w).disp = s.disp := rfl
@[simp] theorem State.push_rngN (w : Word) : (s.push w).rngN = s.rngN := rfl
@[simp] theorem State.push_status (w : Word) : (s.push w).status = s.status := rfl
@[simp] theorem State.push_frame (w : Word) : (s.push w).frame = s.frame := rfl
@[simp] theorem State.push_inputs (w : Word) : (s.push w).inputs = s.inputs := rfl
@[simp] theorem State.push_inputNo (w : Word) : (s.push w).inputNo = s.inputNo := rfl
@[simp] theorem State.push_cfg (w : Word) : (s.push w).cfg = s.cfg := rfl
@[simp] theorem State.push_reg (w : Word) (r : Reg) : (s.push w).reg r = s.reg r := rfl

/-! ### dropTop -/

@[simp] theorem State.dropTop_v : s.dropTop.v = s.v := rfl
@[simp] theorem State.dropTop_pc : s.dropTop.pc = s.pc := rfl
@[simp] theorem State.dropTop_idx : s.dropTop.idx = s.idx := rfl
@[simp] theorem State.dropTop_stack : s.dropTop.stack = s.stack.tail := rfl
@[simp] theorem State.dropTop_dt : s.dropTop.dt = s.dt := rfl
@[simp] theorem State.dropTop_st : s.dropTop.st = s.st := rfl
@[simp] theorem State.dropTop_mem : s.dropTop.mem = s.mem := rfl
@[simp] theorem State.dropTop_disp : s.dropTop.disp = s.disp := rfl
@[simp] theorem State.dropTop_rngN : s.dropTop.rngN = s.rngN := rfl
@[simp] theorem State.dropTop_status : s.dropTop.status = s.status := rfl
@[simp] theorem State.dropTop_frame : s.dropTop.frame = s.frame := rfl
@[simp] theorem State.dropTop_inputs : s.dropTop.inputs = s.inputs := rfl
@[simp] theorem State.dropTop_inputNo : s.dropTop.inputNo = s.inputNo := rfl
@[simp] theorem State.dropTop_cfg : s.dropTop.cfg = s.cfg := rfl
@[simp] theorem State.dropTop_reg (r : Reg) : s.dropTop.reg r = s.reg r := rfl

/-! ### setDisp -/

@[simp] theorem State.setDisp_v (d : Disp) : (s.setDisp d).v = s.v := rfl
@[simp] theorem State.setDisp_pc (d : Disp) : (s.setDisp d).pc = s.pc := rfl
@[simp] theorem State.setDisp_idx (d : Disp) : (s.setDisp d).idx = s.idx := rfl
@[simp] theorem State.setDisp_stack (d : Disp) : (s.setDisp d).stack = s.stack := rfl
@[simp] theorem State.setDisp_dt (d : Disp) : (s.setDisp d).dt = s.dt := rfl
@[simp] theorem State.setDisp_st (d : Disp) : (s.setDisp d).st = s.st := rfl
@[simp] theorem State.setDisp_mem (d : Disp) : (s.setDisp d).mem = s.mem := rfl
@[simp] theorem State.setDisp_disp (d : Disp) : (s.setDisp d).disp = d := rfl
@[simp] theorem State.setDisp_rngN (d : Disp) : (s.setDisp d).rngN = s.rngN := rfl
@[simp] theorem State.setDisp_status (d : Disp) : (s.setDisp d).status = s.status := rfl
@[simp] theorem State.setDisp_frame (d : Disp) : (s.setDisp d).frame = s.frame := rfl
@[simp] theorem State.setDisp_inputs (d : Disp) : (s.setDisp d).inputs = s.inputs := rfl
@[simp] theorem State.setDisp_inputNo (d : Disp) : (s.setDisp d).inputNo = s.inputNo := rfl
@[simp] theorem State.setDisp_cfg (d : Disp) : (s.setDisp d).cfg = s.cfg := rfl
@[simp] theorem State.setDisp_reg (d : Disp) (r : Reg) : (s.setDisp d).reg r = s.reg r := rfl

/-! ### nextRand -/

@[simp] theorem State.nextRand_v : s.nextRand.v = s.v := rfl
@[simp] theorem State.nextRand_pc : s.nextRand.pc = s.pc := rfl
@[simp] theorem State.nextRand_idx : s.nextRand.idx = s.idx := rfl
@[simp] theorem State.nextRand_stack : s.nextRand.stack = s.stack := rfl
@[simp] theorem State.nextRand_dt : s.nextRand.dt = s.dt := rfl
@[simp] theorem State.nextRand_st : s.nextRand.st = s.st := rfl
@[simp] theorem State.nextRand_mem : s.nextRand.mem = s.mem := rfl
@[simp] theorem State.nextRand_disp : s.nextRand.disp = s.disp := rfl
@[simp] theorem State.nextRand_rngN : s.nextRand.rngN = s.rngN + 1 := rfl
@[simp] theorem State.nextRand_status : s.nextRand.status = s.status := rfl
@[simp] theorem State.nextRand_frame : s.nextRand.frame = s.frame := rfl
@[simp] theorem State.nextRand_inputs : s.nextRand.inputs = s.inputs := rfl
@[simp] theorem State.nextRand_inputNo : s.nextRand.inputNo = s.inputNo := rfl
@[simp] theorem State.nextRand_cfg : s.nextRand.cfg = s.cfg := rfl
@[simp] theorem State.nextRand_reg (r : Reg) : s.nextRand.reg r = s.reg r := rfl

/-! ### tick -/

@[simp] theorem State.tick_v : s.tick.v = s.v := rfl
@[simp] theorem State.tick_pc : s.tick.pc = s.pc := rfl
@[simp] theorem State.tick_idx : s.tick.idx = s.idx := rfl
@[simp] theorem State.tick_stack : s.tick.stack = s.stack := rfl
@[simp] theorem State.tick_dt : s.tick.dt = decrement s.dt := rfl
@[simp] theorem State.tick_st : s.tick.st = decrement s.st := rfl
@[simp] theorem State.tick_mem : s.tick.mem = s.mem := rfl
@[simp] theorem State.tick_disp : s.tick.disp = s.disp := rfl
@[simp] theorem State.tick_rngN : s.tick.rngN = s.rngN := rfl
@[simp] theorem State.tick_status : s.tick.status = s.status := rfl
@[simp] theorem State.tick_frame : s.tick.frame = s.frame := rfl
@[simp] theorem State.tick_inputs : s.tick.inputs = s.inputs := rfl
@[simp] theorem State.tick_inputNo : s.tick.inputNo = s.inputNo := rfl
@[simp] theorem State.tick_cfg : s.tick.cfg = s.cfg := rfl
@[simp] theorem State.tick_reg (r : Reg) : s.tick.reg r = s.reg r := rfl

/-! ### dropSample -/

@[simp] theorem State.dropSample_v : s.dropSample.v = s.v := rfl
@[simp] theorem State.dropSample_pc : s.dropSample.pc = s.pc := rfl
@[simp] theorem State.dropSample_idx : s.dropSample.idx = s.idx := rfl
@[simp] theorem State.dropSample_stack : s.dropSample.stack = s.stack := rfl
@[simp] theorem State.dropSample_dt : s.dropSample.dt = s.dt := rfl
@[simp] theorem State.dropSample_st : s.dropSample.st = s.st := rfl
@[simp] theorem State.dropSample_mem : s.dropSample.mem = s.mem := rfl
@[simp] theorem State.dropSample_disp : s.dropSample.disp = s.disp := rfl
@[simp] theorem State.dropSample_rngN : s.dropSample.rngN = s.rngN := rfl
@[simp] theorem State.dropSample_status : s.dropSample.status = s.status := rfl
@[simp] theorem State.dropSample_frame : s.dropSample.frame = s.frame := rfl
@[simp] theorem State.dropSample_inputs : s.dropSample.inputs = s.inputs.tail := rfl
@[simp] theorem State.dropSample_inputNo : s.dropSample.inputNo = s.inputNo + 1 := rfl
@[simp] theorem State.dropSample_cfg : s.dropSample.cfg = s.cfg := rfl
@[simp] theorem State.dropSample_reg (r : Reg) : s.dropSample.reg r = s.reg r := rfl

/-! ### clearFrame -/

@[simp] theorem State.clearFrame_v : s.clearFrame.v = s.v := rfl
@[simp] theorem State.clearFrame_pc : s.clearFrame.pc = s.pc := rfl
@[simp] theorem State.clearFrame_idx : s.clearFrame.idx = s.idx := rfl
@[simp] theorem State.clearFrame_stack : s.clearFrame.stack = s.stack := rfl
@[simp] theorem State.clearFrame_dt : s.clearFrame.dt = s.dt := rfl
@[simp] theorem State.clearFrame_st : s.clearFrame.st = s.st := rfl
@[simp] theorem State.clearFrame_mem : s.clearFrame.mem = s.mem := rfl
@[simp] theorem State.clearFrame_disp : s.clearFrame.disp = s.disp := rfl
@[simp] theorem State.clearFrame_rngN : s.clearFrame.rngN = s.rngN := rfl
@[simp] theorem State.clearFrame_status : s.clearFrame.status = s.status := rfl
@[simp] theorem State.clearFrame_frame : s.clearFrame.frame = none := rfl
@[simp] theorem State.clearFrame_inputs : s.clearFrame.inputs = s.inputs := rfl
@[simp] theorem State.clearFrame_inputNo : s.clearFrame.inputNo = s.inputNo := rfl
@[simp] theorem State.clearFrame_cfg : s.clearFrame.cfg = s.cfg := rfl
@[simp] theorem State.clearFrame_reg (r : Reg) : s.clearFrame.reg r = s.reg r := rfl

/-! ### present -/

@[simp] theorem State.present_v : s.present.v = s.v := rfl
@[simp] theorem State.present_pc : s.present.pc = s.pc := rfl
@[simp] theorem State.present_idx : s.present.idx = s.idx := rfl
@[simp] theorem State.present_stack : s.present.stack = s.stack := rfl
@[simp] theorem State.present_dt : s.present.dt = s.dt := rfl
@[simp] theorem State.present_st : s.present.st = s.st := rfl
@[simp] theorem State.present_mem : s.present.mem = s.mem := rfl
@[simp] theorem State.present_disp : s.present.disp = s.disp := rfl
@[simp] theorem State.present_rngN : s.present.rngN = s.rngN := rfl
@[simp] theorem State.present_status : s.present.status = s.status := rfl
@[simp] theorem State.present_frame : s.present.frame = some s.disp := rfl
@[simp] theorem State.present_inputs : s.present.inputs = s.inputs := rfl
@[simp] theorem State.present_inputNo : s.present.inputNo = s.inputNo := rfl
@[simp] theorem State.present_cfg : s.present.cfg = s.cfg := rfl
@[simp] theorem State.present_reg (r : Reg) : s.present.reg r = s.reg r := rfl

/-! ### raise -/

@[simp] theorem State.raise_v (c : FaultCause) (a : Word) (w : Option Word) : (s.raise c a w).v = s.v := rfl
@[simp] theorem State.raise_pc (c : FaultCause) (a : Word) (w : Option Word) : (s.raise c a w).pc = s.pc := rfl
@[simp] theorem State.raise_idx (c : FaultCause) (a : Word) (w : Option Word) : (s.raise c a w).idx = s.idx := rfl
@[simp] theorem State.raise_stack (c : FaultCause) (a : Word) (w : Option Word) : (s.raise c a w).stack = s.stack := rfl
@[simp] theorem State.raise_dt (c : FaultCause) (a : Word) (w : Option Word) : (s.raise c a w).dt = s.dt := rfl
@[simp] theorem State.raise_st (c : FaultCause) (a : Word) (w : Option Word) : (s.raise c a w).st = s.st := rfl
@[simp] theorem State.raise_mem (c : FaultCause) (a : Word) (w : Option Word) : (s.raise c a w).mem = s.mem := rfl
@[simp] theorem State.raise_disp (c : FaultCause) (a : Word) (w : Option Word) : (s.raise c a w).disp = s.disp := rfl
@[simp] theorem State.raise_rngN (c : FaultCause) (a : Word) (w : Option Word) : (s.raise c a w).rngN = s.rngN := rfl
@[simp] theorem State.raise_status (c : FaultCause) (a : Word) (w : Option Word) : (s.raise c a w).status = .faulted ⟨c, a, w⟩ := rfl
@[simp] theorem State.raise_frame (c : FaultCause) (a : Word) (w : Option Word) : (s.raise c a w).frame = s.frame := rfl
@[simp] theorem State.raise_inputs (c : FaultCause) (a : Word) (w : Option Word) : (s.raise c a w).inputs = s.inputs := rfl
@[simp] theorem State.raise_inputNo (c : FaultCause) (a : Word) (w : Option Word) : (s.raise c a w).inputNo = s.inputNo := rfl
@[simp] theorem State.raise_cfg (c : FaultCause) (a : Word) (w : Option Word) : (s.raise c a w).cfg = s.cfg := rfl
@[simp] theorem State.raise_reg (c : FaultCause) (a : Word) (w : Option Word) (r : Reg) : (s.raise c a w).reg r = s.reg r := rfl

/-! ### trap -/

@[simp] theorem State.trap_v (c : FaultCause) (i : Instr) : (s.trap c i).v = s.v := rfl
@[simp] theorem State.trap_pc (c : FaultCause) (i : Instr) : (s.trap c i).pc = s.pc + 2 := rfl
@[simp] theorem State.trap_idx (c : FaultCause) (i : Instr) : (s.trap c i).idx = s.idx := rfl
@[simp] theorem State.trap_stack (c : FaultCause) (i : Instr) : (s.trap c i).stack = s.stack := rfl
@[simp] theorem State.trap_dt (c : FaultCause) (i : Instr) : (s.trap c i).dt = s.dt := rfl
@[simp] theorem State.trap_st (c : FaultCause) (i : Instr) : (s.trap c i).st = s.st := rfl
@[simp] theorem State.trap_mem (c : FaultCause) (i : Instr) : (s.trap c i).mem = s.mem := rfl
@[simp] theorem State.trap_disp (c : FaultCause) (i : Instr) : (s.trap c i).disp = s.disp := rfl
@[simp] theorem State.trap_rngN (c : FaultCause) (i : Instr) : (s.trap c i).rngN = s.rngN := rfl
@[simp] theorem State.trap_status (c : FaultCause) (i : Instr) : (s.trap c i).status = .faulted ⟨c, s.pc, some (encode i)⟩ := rfl
@[simp] theorem State.trap_frame (c : FaultCause) (i : Instr) : (s.trap c i).frame = s.frame := rfl
@[simp] theorem State.trap_inputs (c : FaultCause) (i : Instr) : (s.trap c i).inputs = s.inputs := rfl
@[simp] theorem State.trap_inputNo (c : FaultCause) (i : Instr) : (s.trap c i).inputNo = s.inputNo := rfl
@[simp] theorem State.trap_cfg (c : FaultCause) (i : Instr) : (s.trap c i).cfg = s.cfg := rfl
@[simp] theorem State.trap_reg (c : FaultCause) (i : Instr) (r : Reg) : (s.trap c i).reg r = s.reg r := rfl

/-! ### stop -/

@[simp] theorem State.stop_v : s.stop.v = s.v := rfl
@[simp] theorem State.stop_pc : s.stop.pc = s.pc := rfl
@[simp] theorem State.stop_idx : s.stop.idx = s.idx := rfl
@[simp] theorem State.stop_stack : s.stop.stack = s.stack := rfl
@[simp] theorem State.stop_dt : s.stop.dt = s.dt := rfl
@[simp] theorem State.stop_st : s.stop.st = s.st := rfl
@[simp] theorem State.stop_mem : s.stop.mem = s.mem := rfl
@[simp] theorem State.stop_disp : s.stop.disp = s.disp := rfl
@[simp] theorem State.stop_rngN : s.stop.rngN = s.rngN := rfl
@[simp] theorem State.stop_status : s.stop.status = .stopped := rfl
@[simp] theorem State.stop_frame : s.stop.frame = s.frame := rfl
@[simp] theorem State.stop_inputs : s.stop.inputs = s.inputs := rfl
@[simp] theorem State.stop_inputNo : s.stop.inputNo = s.inputNo := rfl
@[simp] theorem State.stop_cfg : s.stop.cfg = s.cfg := rfl
@[simp] theorem State.stop_reg (r : Reg) : s.stop.reg r = s.reg r := rfl

end Sys2Proof.Machine
end

