-- ==== Sys2Proof/Laws/Display.lean ====
section
/-! SUPPORT. The display: a pixel after `DispSet`, after a clear, and after a whole sprite, and when a sprite
collides. -/

namespace Sys2Proof.Machine

/-- `DispSet` flips the one wrapped pixel it names, if its bit is set, and no other (R530). -/
theorem Disp.get_dispSet (d : Disp) (x y : Nat) (bit : Bool) (px py : Nat) :
    Disp.get (dispSet d x y bit).1 px py =
      (d.get px py ^^ (bit && decide (px % 64 = x % 64) && decide (py % 32 = y % 32))) := by
  simp only [Disp.get, dispSet, Vector.getElem_set]
  by_cases hy : y % 32 = py % 32
  · by_cases hx : x % 64 = px % 64
    · simp [hy, hx]
    · simp [hy, hx, eq_comm]
  · simp [hy, eq_comm]

/-- `DispSet` reports a lit pixel turned off (R530). -/
theorem dispSet_collides (d : Disp) (x y : Nat) (bit : Bool) : (dispSet d x y bit).2 = (d.get x y && bit) := rfl

@[simp] theorem Disp.get_dispClear (px py : Nat) : Disp.get dispClear px py = false := by
  simp [Disp.get, dispClear]

/-- Two buffers that agree on the 2048 pixels are equal. -/
theorem Disp.ext_get {d e : Disp} (h : ∀ px < 64, ∀ py < 32, d.get px py = e.get px py) : d = e := by
  apply Vector.ext
  intro y hy
  apply Vector.ext
  intro x hx
  have := h x hx y hy
  simpa only [Disp.get, Nat.mod_eq_of_lt hx, Nat.mod_eq_of_lt hy] using this

/-- A sprite row, placed at column x0, covers column px. -/
def rowCovers (cs : List Nat) (x0 : Nat) (b : Byte) (px : Nat) : Bool :=
  cs.any fun c => b.getLsbD (7 - c) && decide (px % 64 = (x0 + c) % 64)

/-- A sprite row, placed at column x0 of row y, hits a lit pixel. -/
def rowHits (cs : List Nat) (x0 y : Nat) (b : Byte) (d : Disp) : Bool :=
  cs.any fun c => b.getLsbD (7 - c) && d.get (x0 + c) y

theorem foldl_drawPixel (x0 y : Nat) (b : Byte) (cs : List Nat) : ∀ (acc : Disp × Bool), cs.Nodup → (∀ c ∈ cs, c < 8) →
    (∀ px py, Disp.get (cs.foldl (fun acc c => drawPixel (x0 + c) y (b.getLsbD (7 - c)) acc) acc).1 px py =
      (acc.1.get px py ^^ (rowCovers cs x0 b px && decide (py % 32 = y % 32)))) ∧
    (cs.foldl (fun acc c => drawPixel (x0 + c) y (b.getLsbD (7 - c)) acc) acc).2 =
      (acc.2 || rowHits cs x0 y b acc.1) := by
  induction cs with
  | nil => intro acc _ _; simp [rowCovers, rowHits]
  | cons c cs ih =>
    intro acc hnd hlt
    obtain ⟨hc, hnd'⟩ := List.nodup_cons.mp hnd
    have hc8 : c < 8 := hlt c (by simp)
    have hlt' : ∀ e ∈ cs, e < 8 := fun e he => hlt e (by simp [he])
    have hne : ∀ e ∈ cs, (x0 + e) % 64 ≠ (x0 + c) % 64 := by
      intro e he heq
      have := hlt' e he
      have : e = c := by omega
      exact hc (this ▸ he)
    obtain ⟨ih1, ih2⟩ := ih (drawPixel (x0 + c) y (b.getLsbD (7 - c)) acc) hnd' hlt'
    constructor
    · intro px py
      rw [List.foldl_cons, ih1, drawPixel, Disp.get_dispSet]
      by_cases hpx : px % 64 = (x0 + c) % 64
      · have : rowCovers cs x0 b px = false := by
          simp only [rowCovers, List.any_eq_false, Bool.and_eq_true, decide_eq_true_eq, not_and]
          intro e he _ heq
          exact hne e he (heq ▸ hpx)
        have hcons : rowCovers (c :: cs) x0 b px = b.getLsbD (7 - c) := by
          rw [rowCovers, List.any_cons, ← rowCovers, this]
          simp [hpx]
        simp [this, hcons, hpx]
      · simp [rowCovers, hpx]
    · rw [List.foldl_cons, ih2, drawPixel, dispSet_collides]
      have : rowHits cs x0 y b (dispSet acc.1 (x0 + c) y (b.getLsbD (7 - c))).1 = rowHits cs x0 y b acc.1 := by
        simp only [rowHits]
        rw [Bool.eq_iff_iff, List.any_eq_true, List.any_eq_true]
        refine exists_congr fun e => and_congr_right fun he => ?_
        rw [Disp.get_dispSet]
        simp [hne e he]
      have hcons : rowHits (c :: cs) x0 y b acc.1 =
          (b.getLsbD (7 - c) && acc.1.get (x0 + c) y || rowHits cs x0 y b acc.1) := rfl
      simp only [this, hcons, Bool.or_assoc, Bool.and_comm]

/-- What one sprite row does to every pixel, and when it hits a lit one (R534). -/
theorem drawRow_spec (x0 y : Nat) (b : Byte) (acc : Disp × Bool) :
    (∀ px py, Disp.get (drawRow x0 y b acc).1 px py =
      (acc.1.get px py ^^ (rowCovers (List.range 8) x0 b px && decide (py % 32 = y % 32)))) ∧
    (drawRow x0 y b acc).2 = (acc.2 || rowHits (List.range 8) x0 y b acc.1) :=
  foldl_drawPixel x0 y b (List.range 8) acc List.nodup_range (fun _ h => List.mem_range.mp h)

/-- A sprite placed at (x0, y) covers pixel (px, py). -/
def spriteCovers (x0 : Nat) : Nat → List Byte → Nat → Nat → Bool
  | _, [], _, _ => false
  | y, b :: bs, px, py =>
    (rowCovers (List.range 8) x0 b px && decide (py % 32 = y % 32)) || spriteCovers x0 (y + 1) bs px py

/-- A sprite placed at (x0, y) hits a lit pixel of `d`. -/
def spriteHits (x0 : Nat) : Nat → List Byte → Disp → Bool
  | _, [], _ => false
  | y, b :: bs, d => rowHits (List.range 8) x0 y b d || spriteHits x0 (y + 1) bs d

theorem spriteCovers_iff (x0 : Nat) (bs : List Byte) : ∀ (y px py : Nat), spriteCovers x0 y bs px py = true ↔
    ∃ r < bs.length, ∃ c < 8, (bs.getD r 0).getLsbD (7 - c) = true ∧ px % 64 = (x0 + c) % 64 ∧
      py % 32 = (y + r) % 32 := by
  induction bs with
  | nil => intro y px py; simp [spriteCovers]
  | cons b bs ih =>
    intro y px py
    simp only [spriteCovers, Bool.or_eq_true, Bool.and_eq_true, rowCovers, List.any_eq_true, List.mem_range,
      decide_eq_true_eq, ih]
    constructor
    · rintro (⟨⟨c, hc, hb, hx⟩, hy⟩ | ⟨r, hr, c, hc, hb, hx, hy⟩)
      · exact ⟨0, by simp, c, hc, by simpa using hb, hx, by simpa using hy⟩
      · exact ⟨r + 1, by simpa using hr, c, hc, by simpa using hb, hx, by rw [hy]; congr 1; omega⟩
    · rintro ⟨r, hr, c, hc, hb, hx, hy⟩
      cases r with
      | zero => exact .inl ⟨⟨c, hc, by simpa using hb, hx⟩, by simpa using hy⟩
      | succ r =>
        exact .inr ⟨r, by simpa using hr, c, hc, by simpa using hb, hx, by rw [hy]; congr 1; omega⟩

theorem spriteHits_iff (x0 : Nat) (d : Disp) (bs : List Byte) : ∀ (y : Nat), spriteHits x0 y bs d = true ↔
    ∃ r < bs.length, ∃ c < 8, (bs.getD r 0).getLsbD (7 - c) = true ∧ d.get (x0 + c) (y + r) = true := by
  induction bs with
  | nil => intro y; simp [spriteHits]
  | cons b bs ih =>
    intro y
    simp only [spriteHits, Bool.or_eq_true, rowHits, Bool.and_eq_true, List.any_eq_true, List.mem_range, ih]
    constructor
    · rintro (⟨c, hc, hb, hd⟩ | ⟨r, hr, c, hc, hb, hd⟩)
      · exact ⟨0, by simp, c, hc, by simpa using hb, by simpa using hd⟩
      · exact ⟨r + 1, by simpa using hr, c, hc, by simpa using hb, by rwa [show y + (r + 1) = y + 1 + r by omega]⟩
    · rintro ⟨r, hr, c, hc, hb, hd⟩
      cases r with
      | zero => exact .inl ⟨c, hc, by simpa using hb, by simpa using hd⟩
      | succ r =>
        exact .inr ⟨r, by simpa using hr, c, hc, by simpa using hb, by rwa [show y + 1 + r = y + (r + 1) by omega]⟩

/-- What a sprite of at most 32 rows does to every pixel, and when it hits a lit one (R534): no pixel is toggled
twice, so each covered pixel is flipped, and a hit is a hit in the buffer before the sprite. -/
theorem drawRows_spec (x0 : Nat) (bs : List Byte) : ∀ (y : Nat) (acc : Disp × Bool), bs.length ≤ 32 →
    (∀ px py, Disp.get (drawRows x0 y bs acc).1 px py = (acc.1.get px py ^^ spriteCovers x0 y bs px py)) ∧
    (drawRows x0 y bs acc).2 = (acc.2 || spriteHits x0 y bs acc.1) := by
  induction bs with
  | nil => intro y acc _; simp [drawRows, spriteCovers, spriteHits]
  | cons b bs ih =>
    intro y acc hlen
    simp only [List.length_cons] at hlen
    obtain ⟨r1, r2⟩ := drawRow_spec x0 y b acc
    obtain ⟨ih1, ih2⟩ := ih (y + 1) (drawRow x0 y b acc) (by omega)
    constructor
    · intro px py
      rw [drawRows, ih1, r1, spriteCovers]
      by_cases hpy : py % 32 = y % 32
      · have : spriteCovers x0 (y + 1) bs px py = false := by
          rw [Bool.eq_false_iff, ne_eq, spriteCovers_iff]
          rintro ⟨r, hr, -, -, -, -, hy⟩
          omega
        simp [this]
      · simp [hpy]
    · rw [drawRows, ih2, r2, spriteHits, Bool.or_assoc]
      congr 2
      rw [Bool.eq_iff_iff, spriteHits_iff, spriteHits_iff]
      refine exists_congr fun r => and_congr_right fun hr => exists_congr fun c => and_congr_right fun _ =>
        and_congr_right fun _ => ?_
      rw [r1]
      have : ¬ (y + 1 + r) % 32 = y % 32 := by omega
      simp [this]

end Sys2Proof.Machine
end

