-- ==== Sys2Proof/Laws/Memory.lean ====
section
/-! SUPPORT. Memory: the canonical form is kept by every operation and is canonical, a read after a write, and what
the range-checked accesses can do. -/

namespace Sys2Proof.Machine

theorem Memory.wfFrom_cons {lo k : Nat} {b : Byte} {m : Memory} :
    Memory.wfFrom lo ((k, b) :: m) = true ↔
      lo ≤ k ∧ k < memSize ∧ b ≠ unlisted k ∧ Memory.wfFrom (k + 1) m = true := by
  simp [Memory.wfFrom, and_assoc]

theorem Memory.wfFrom_mono {lo lo' : Nat} {m : Memory} (h : lo' ≤ lo) (hm : Memory.wfFrom lo m = true) :
    Memory.wfFrom lo' m = true := by
  cases m with
  | nil => rfl
  | cons c m =>
    rw [Memory.wfFrom_cons] at hm ⊢
    exact ⟨by omega, hm.2⟩

/-- Below every listed address memory reads as unlisted. -/
theorem Memory.byte_below {m : Memory} : ∀ {lo a : Nat}, Memory.wfFrom lo m = true → a < lo → Memory.byte m a = unlisted a := by
  induction m with
  | nil => intro lo a _ _; rfl
  | cons c m ih =>
    intro lo a h ha
    obtain ⟨h1, -, -, h4⟩ := Memory.wfFrom_cons.mp h
    have hne : c.1 ≠ a := by omega
    simp only [Memory.byte, hne, if_false]
    exact ih h4 (by omega)

theorem Memory.set_wfFrom {m : Memory} : ∀ {lo a : Nat} (b : Byte), Memory.wfFrom lo m = true → lo ≤ a → a < memSize →
    Memory.wfFrom lo (Memory.set m a b) = true := by
  induction m with
  | nil =>
    intro lo a b _ h1 h2
    simp only [Memory.set]
    split
    · rfl
    · simp [Memory.wfFrom, *]
  | cons c m ih =>
    obtain ⟨k, e⟩ := c
    intro lo a b h h1 h2
    obtain ⟨g1, g2, g3, g4⟩ := Memory.wfFrom_cons.mp h
    simp only [Memory.set]
    split
    · split
      · exact h
      · rw [Memory.wfFrom_cons, Memory.wfFrom_cons]
        exact ⟨h1, h2, ‹_›, by omega, g2, g3, g4⟩
    · split
      · subst_vars
        split
        · exact Memory.wfFrom_mono (by omega) g4
        · exact Memory.wfFrom_cons.mpr ⟨h1, h2, ‹_›, g4⟩
      · exact Memory.wfFrom_cons.mpr ⟨g1, g2, g3, ih b g4 (by omega) h2⟩

/-- A write keeps the canonical form. -/
theorem Memory.set_wf {m : Memory} {a : Nat} (b : Byte) (h : Memory.wf m = true) (ha : a < memSize) :
    Memory.wf (Memory.set m a b) = true :=
  Memory.set_wfFrom b h (Nat.zero_le a) ha

theorem Memory.byte_set_from {m : Memory} : ∀ {lo : Nat} (a c : Nat) (b : Byte), Memory.wfFrom lo m = true →
    Memory.byte (Memory.set m a b) c = if c = a then b else Memory.byte m c := by
  induction m with
  | nil =>
    intro lo a c b _
    simp only [Memory.set]
    by_cases hc : c = a
    · subst hc
      split
      · next hb => simp [Memory.byte, hb]
      · simp [Memory.byte]
    · have hc' : ¬ a = c := fun h => hc h.symm
      split <;> simp [Memory.byte, hc']
  | cons e m ih =>
    obtain ⟨k, d⟩ := e
    intro lo a c b h
    obtain ⟨g1, g2, g3, g4⟩ := Memory.wfFrom_cons.mp h
    simp only [Memory.set]
    split
    · next hlt =>
      split
      · next hb =>
        by_cases hc : c = a
        · subst hc
          have hk : k ≠ c := by omega
          simp [Memory.byte, hk, hb, Memory.byte_below g4 (show c < k + 1 by omega)]
        · simp [hc]
      · by_cases hc : c = a
        · simp [Memory.byte, hc]
        · have : a ≠ c := fun h => hc h.symm
          simp [Memory.byte, hc, this]
    · split
      · next heq =>
        subst heq
        split
        · next hb =>
          by_cases hc : c = a
          · subst hc
            simp [hb, Memory.byte_below g4 (Nat.lt_succ_self c)]
          · have : a ≠ c := fun h => hc h.symm
            simp [Memory.byte, hc, this]
        · by_cases hc : c = a
          · simp [Memory.byte, hc]
          · have : a ≠ c := fun h => hc h.symm
            simp [Memory.byte, hc, this]
      · next hlt hne =>
        simp only [Memory.byte]
        split
        · next hk =>
          have : c ≠ a := by omega
          simp [this]
        · rw [ih a c b g4]

/-- A read after a write: the byte written at its address, the old byte everywhere else. -/
theorem Memory.byte_set {m : Memory} (h : Memory.wf m = true) (a c : Nat) (b : Byte) :
    Memory.byte (Memory.set m a b) c = if c = a then b else Memory.byte m c :=
  Memory.byte_set_from a c b h

theorem Memory.setBytes_wf (bs : List Byte) : ∀ {m : Memory} {a : Nat}, Memory.wf m = true → a + bs.length ≤ memSize →
    Memory.wf (Memory.setBytes m a bs) = true := by
  induction bs with
  | nil => intro m a h _; exact h
  | cons b bs ih =>
    intro m a h ha
    simp only [List.length_cons] at ha
    exact ih (Memory.set_wf b h (by omega)) (by omega)

/-- A read after a block write. -/
theorem Memory.byte_setBytes (bs : List Byte) : ∀ {m : Memory} {a : Nat} (c : Nat), Memory.wf m = true →
    a + bs.length ≤ memSize →
    Memory.byte (Memory.setBytes m a bs) c = if a ≤ c then bs.getD (c - a) (Memory.byte m c) else Memory.byte m c := by
  induction bs with
  | nil => intro m a c _ _; simp [Memory.setBytes]
  | cons b bs ih =>
    intro m a c h ha
    simp only [List.length_cons] at ha
    rw [Memory.setBytes, ih c (Memory.set_wf b h (by omega)) (by omega), Memory.byte_set h]
    rcases Nat.lt_trichotomy c a with hc | hc | hc
    · have h1 : ¬ a + 1 ≤ c := by omega
      have h2 : ¬ a ≤ c := by omega
      have h3 : c ≠ a := by omega
      simp [h1, h2, h3]
    · subst hc
      simp
    · obtain ⟨d, rfl⟩ : ∃ d, c = a + (d + 1) := ⟨c - a - 1, by omega⟩
      have h4 : a + (d + 1) - (a + 1) = d := by omega
      have h5 : a + (d + 1) - a = d + 1 := by omega
      have h6 : a + 1 ≤ a + (d + 1) := by omega
      simp [h4, h5, h6]

/-- The form is canonical: two memories in it that read alike everywhere are equal. -/
theorem Memory.ext_of_wfFrom {m n : Memory} : ∀ {lo : Nat}, Memory.wfFrom lo m = true → Memory.wfFrom lo n = true →
    (∀ a, Memory.byte m a = Memory.byte n a) → m = n := by
  induction m generalizing n with
  | nil =>
    intro lo _ hn h
    cases n with
    | nil => rfl
    | cons c n =>
      obtain ⟨-, -, h3, -⟩ := Memory.wfFrom_cons.mp hn
      have := h c.1
      simp [Memory.byte] at this
      exact absurd this.symm h3
  | cons c m ih =>
    obtain ⟨k, b⟩ := c
    intro lo hm hn h
    obtain ⟨g1, g2, g3, g4⟩ := Memory.wfFrom_cons.mp hm
    cases n with
    | nil =>
      have := h k
      simp [Memory.byte] at this
      exact absurd this g3
    | cons e n =>
      obtain ⟨k', b'⟩ := e
      obtain ⟨f1, f2, f3, f4⟩ := Memory.wfFrom_cons.mp hn
      have hk : k = k' := by
        rcases Nat.lt_trichotomy k k' with hlt | heq | hgt
        · have h1 := h k
          have hne : k' ≠ k := by omega
          simp only [Memory.byte, if_true, hne, if_false, Memory.byte_below f4 (show k < k' + 1 by omega)] at h1
          exact absurd h1 g3
        · exact heq
        · have h1 := h k'
          have hne : k ≠ k' := by omega
          simp only [Memory.byte, if_true, hne, if_false, Memory.byte_below g4 (show k' < k + 1 by omega)] at h1
          exact absurd h1.symm f3
      subst hk
      have hb : b = b' := by simpa [Memory.byte] using h k
      subst hb
      congr 1
      refine ih g4 f4 fun a => ?_
      by_cases ha : k = a
      · subst ha
        rw [Memory.byte_below g4 (Nat.lt_succ_self k), Memory.byte_below f4 (Nat.lt_succ_self k)]
      · simpa [Memory.byte, ha] using h a

theorem inMemory_iff {base n : Nat} : inMemory base n = true ↔ n = 0 ∨ base + n ≤ memSize := by
  simp [inMemory]

/-- Everything a range-checked read can answer. -/
theorem State.slice_eq_some {s : State} {base n : Nat} {bs : List Byte} :
    s.slice base n = some bs ↔
      (n = 0 ∨ base + n ≤ memSize) ∧ bs = (List.range' base n).map (Memory.byte s.mem) := by
  unfold State.slice
  split
  · next h => exact ⟨fun e => ⟨inMemory_iff.mp h, (Option.some.inj e).symm⟩, fun e => by rw [e.2]⟩
  · next h => exact ⟨fun e => (Option.some_ne_none _ e.symm).elim, fun e => (h (inMemory_iff.mpr e.1)).elim⟩

theorem State.slice_eq_none {s : State} {base n : Nat} :
    s.slice base n = none ↔ n ≠ 0 ∧ memSize < base + n := by
  unfold State.slice
  split
  · next h =>
    have h := inMemory_iff.mp h
    simp only [reduceCtorEq, false_iff]
    omega
  · next h =>
    have h := mt inMemory_iff.mpr h
    simp only [true_iff]
    omega

theorem State.slice_getD {s : State} {base n k : Nat} {bs : List Byte} (h : s.slice base n = some bs) (hk : k < n)
    (d : Byte) : bs.getD k d = Memory.byte s.mem (base + k) := by
  obtain ⟨-, rfl⟩ := State.slice_eq_some.mp h
  simp [List.getD_eq_getElem?_getD, hk]

theorem State.slice_length {s : State} {base n : Nat} {bs : List Byte} (h : s.slice base n = some bs) :
    bs.length = n := by
  obtain ⟨-, rfl⟩ := State.slice_eq_some.mp h
  simp

/-- Everything a range-checked write can answer. -/
theorem State.store_eq_some {s t : State} {base : Nat} {bs : List Byte} :
    s.store base bs = some t ↔
      (bs.length = 0 ∨ base + bs.length ≤ memSize) ∧ t = { s with mem := Memory.setBytes s.mem base bs } := by
  unfold State.store
  split
  · next h => exact ⟨fun e => ⟨inMemory_iff.mp h, (Option.some.inj e).symm⟩, fun e => by rw [e.2]⟩
  · next h => exact ⟨fun e => (Option.some_ne_none _ e.symm).elim, fun e => (h (inMemory_iff.mpr e.1)).elim⟩

theorem State.store_eq_none {s : State} {base : Nat} {bs : List Byte} :
    s.store base bs = none ↔ bs.length ≠ 0 ∧ memSize < base + bs.length := by
  unfold State.store
  split
  · next h =>
    have h := inMemory_iff.mp h
    simp only [reduceCtorEq, false_iff]
    omega
  · next h =>
    have h := mt inMemory_iff.mpr h
    simp only [true_iff]
    omega

/-- Every memory operation of an instruction keeps the canonical form. -/
theorem State.store_wf {s t : State} {base : Nat} {bs : List Byte} (h : s.store base bs = some t)
    (hs : Memory.wf s.mem = true) : Memory.wf t.mem = true := by
  obtain ⟨h1 | h1, rfl⟩ := State.store_eq_some.mp h
  · rw [List.length_eq_zero_iff] at h1
    subst h1
    exact hs
  · exact Memory.setBytes_wf bs hs h1

/-- Everything a fetch can answer: the big-endian word at PC, unless a byte of it lies above 4095. -/
theorem State.fetch_eq_some {s : State} {w : Word} :
    s.fetch = some w ↔
      s.pc.toNat ≤ 4094 ∧ w = bigEndian (Memory.byte s.mem s.pc.toNat) (Memory.byte s.mem (s.pc.toNat + 1)) := by
  unfold State.fetch
  split
  · simp only [reduceCtorEq, false_iff]
    omega
  · simp only [Option.some.injEq, eq_comm]
    constructor
    · intro h; exact ⟨by omega, h⟩
    · intro h; exact h.2

theorem State.fetch_eq_none {s : State} : s.fetch = none ↔ 4094 < s.pc.toNat := by
  unfold State.fetch
  split <;> simp_all

theorem bigEndian_toNat (hi lo : Byte) : (bigEndian hi lo).toNat = hi.toNat * 256 + lo.toNat := by
  have h := lo.isLt
  simp only [bigEndian, BitVec.toNat_append]
  rw [Nat.shiftLeft_eq, ← Nat.shiftLeft_eq, ← Nat.shiftLeft_add_eq_or_of_lt (by omega), Nat.shiftLeft_eq]

end Sys2Proof.Machine
end

