-- ==== Sys2Proof/Laws/Registers.lean ====
section
/-! SUPPORT. Reads of registers after writes, single and in blocks, and everything `WriteRF` can do. -/

namespace Sys2Proof.Machine

theorem State.setReg_reg (s : State) (x r : Reg) (b : Byte) : (s.setReg x b).reg r = if r = x then b else s.reg r := by
  simp only [State.setReg, State.reg, Vector.getElem_set, Fin.ext_iff, eq_comm]

@[simp] theorem State.setReg_reg_same (s : State) (x : Reg) (b : Byte) : (s.setReg x b).reg x = b := by
  simp [State.setReg_reg]

theorem State.setReg_reg_other (s : State) {x r : Reg} (b : Byte) (h : r ≠ x) : (s.setReg x b).reg r = s.reg r := by
  simp [State.setReg_reg, h]

theorem setRegsFrom_get (bs : List Byte) : ∀ (k : Nat) (v : Vector Byte 16) (i : Nat) (hi : i < 16),
    (setRegsFrom k bs v)[i] = if k ≤ i then bs.getD (i - k) v[i] else v[i] := by
  induction bs with
  | nil => intro k v i hi; simp [setRegsFrom]
  | cons b bs ih =>
    intro k v i hi
    rw [setRegsFrom, ih]
    rcases Nat.lt_trichotomy i k with h | h | h
    · have h1 : ¬ k + 1 ≤ i := by omega
      have h2 : ¬ k ≤ i := by omega
      have h3 : k ≠ i := by omega
      simp [h1, h2, h3]
    · subst h
      simp
    · have h1 : k + 1 ≤ i := by omega
      have h2 : k ≤ i := by omega
      have h3 : k ≠ i := by omega
      obtain ⟨d, rfl⟩ : ∃ d, i = k + (d + 1) := ⟨i - k - 1, by omega⟩
      have h4 : k + (d + 1) - (k + 1) = d := by omega
      have h5 : k + (d + 1) - k = d + 1 := by omega
      simp [h1, h4, h5]

/-- A block load gives register r the r-th byte, and leaves the registers past the block alone. -/
theorem State.setRegs_reg (s : State) (bs : List Byte) (r : Reg) : (s.setRegs bs).reg r = bs.getD r.val (s.reg r) := by
  simp [State.setRegs, State.reg, setRegsFrom_get]

theorem State.regsUpTo_length (s : State) (x : Reg) : (s.regsUpTo x).length = x.val + 1 := by
  have := x.isLt
  simp [State.regsUpTo]

theorem State.regsUpTo_getD (s : State) (x k : Reg) (h : k ≤ x) (b : Byte) :
    (s.regsUpTo x).getD k.val b = s.reg k := by
  have h1 : k.val < x.val + 1 := by have := Fin.le_def.mp h; omega
  simp [State.regsUpTo, State.reg, h1, List.getD_eq_getElem?_getD]

/-- Everything `WriteRF` can do: it writes registers only. -/
theorem State.writeRF_eq_setV (s : State) (x : Reg) (res : Byte) (f : Bool) (seq : Byte) :
    ∃ v, s.writeRF x res f seq = { s with v := v } := by
  unfold State.writeRF
  split
  · exact ⟨_, rfl⟩
  · exact ⟨_, rfl⟩

theorem State.writeRF_reg_dest (s : State) {x : Reg} (res : Byte) (f : Bool) (seq : Byte) (h : x ≠ VF) :
    (s.writeRF x res f seq).reg x = res := by
  simp [State.writeRF, h, State.setReg_reg]

theorem State.writeRF_reg_flag (s : State) {x : Reg} (res : Byte) (f : Bool) (seq : Byte) (h : x ≠ VF) :
    (s.writeRF x res f seq).reg VF = flagByte f := by
  simp [State.writeRF, h]

theorem State.writeRF_reg_vfDest (s : State) (res : Byte) (f : Bool) (seq : Byte) :
    (s.writeRF VF res f seq).reg VF = vfDest s.cfg.vfDestPolicy res f seq := by
  simp [State.writeRF]

theorem State.writeRF_reg_other (s : State) {x r : Reg} (res : Byte) (f : Bool) (seq : Byte) (hx : r ≠ x)
    (hf : r ≠ VF) : (s.writeRF x res f seq).reg r = s.reg r := by
  unfold State.writeRF
  split <;> simp [State.setReg_reg, hx, hf]

end Sys2Proof.Machine
end

