-- ==== Sys2Proof/Laws/Exec.lean ====
section
/-! SUPPORT. What the shared operations of the meanings can do, and what no instruction can do. -/

namespace Sys2Proof.Machine

/-- A skip moves PC and nothing else (R446). -/
theorem State.skipIf_eq_setPc (s : State) (c : Bool) :
    s.skipIf c = s.setPc (if c then s.pc + 2 + 2 else s.pc + 2) := by
  cases c <;> rfl

/-- What a key wait can do: rewind, or write the destination (R563). -/
theorem State.loadKey_cases (s : State) (x : Reg) (k : Option Key) :
    (k = none ∧ s.loadKey x k = s.rewind) ∨ ∃ j, k = some j ∧ s.loadKey x k = s.setReg x (keyByte j) := by
  cases k with
  | none => exact .inl ⟨rfl, rfl⟩
  | some j => exact .inr ⟨j, rfl, rfl⟩

/-- The rewind of a waiting key load undoes the advance of the same step (R563). -/
theorem State.advance_rewind (s : State) : s.advance.rewind = s := by
  simp only [State.rewind, State.advance, State.setPc]
  simp

theorem execRet_cases (s : State) :
    (s.stack = [] ∧ execRet s = .next (s.trap .stackUnderflow .ret)) ∨
      ∃ w ws, s.stack = w :: ws ∧ execRet s = .next (s.advance.dropTop.setPc w) := by
  unfold execRet
  cases h : s.stack with
  | nil => exact .inl ⟨rfl, rfl⟩
  | cons w ws => exact .inr ⟨w, ws, rfl, rfl⟩

theorem execCall_cases (nnn : Addr) (s : State) :
    (s.stackFull = true ∧ execCall nnn s = .next (s.trap .stackOverflow (.call nnn))) ∨
      (s.stackFull = false ∧ execCall nnn s = .next ((s.advance.push s.advance.pc).setPc (zextAddr nnn))) := by
  unfold execCall
  cases h : s.stackFull <;> simp

theorem execLoadBcd_cases (x : Reg) (s : State) :
    (memSize < s.idx.toNat + 3 ∧ execLoadBcd x s = .next (s.trap .boundsViolation (.loadBcd x))) ∨
      (s.idx.toNat + 3 ≤ memSize ∧ execLoadBcd x s = .next { s.advance with
        mem := Memory.setBytes s.mem s.idx.toNat (bcdDigits (s.reg x)) }) := by
  unfold execLoadBcd
  cases h : s.advance.store s.idx.toNat (bcdDigits (s.reg x)) with
  | none => exact .inl ⟨(State.store_eq_none.mp h).2, rfl⟩
  | some t =>
    obtain ⟨h1 | h1, rfl⟩ := State.store_eq_some.mp h
    · exact absurd h1 (by simp [bcdDigits])
    · exact .inr ⟨h1, rfl⟩

theorem execStoreRegisters_cases (x : Reg) (s : State) :
    (memSize < s.idx.toNat + (x.val + 1) ∧
        execStoreRegisters x s = .next (s.trap .boundsViolation (.storeRegisters x))) ∨
      (s.idx.toNat + (x.val + 1) ≤ memSize ∧ execStoreRegisters x s = .next { s.advance with
        mem := Memory.setBytes s.mem s.idx.toNat (s.regsUpTo x) }) := by
  have hlen := s.regsUpTo_length x
  unfold execStoreRegisters
  cases h : s.advance.store s.idx.toNat (s.regsUpTo x) with
  | none => exact .inl ⟨hlen ▸ (State.store_eq_none.mp h).2, rfl⟩
  | some t =>
    obtain ⟨h1 | h1, rfl⟩ := State.store_eq_some.mp h
    · omega
    · exact .inr ⟨hlen ▸ h1, rfl⟩

theorem execReadRegisters_cases (x : Reg) (s : State) :
    (memSize < s.idx.toNat + (x.val + 1) ∧
        execReadRegisters x s = .next (s.trap .boundsViolation (.readRegisters x))) ∨
      ∃ bs, s.idx.toNat + (x.val + 1) ≤ memSize ∧ s.slice s.idx.toNat (x.val + 1) = some bs ∧
        execReadRegisters x s = .next (s.advance.setRegs bs) := by
  unfold execReadRegisters
  cases h : s.slice s.idx.toNat (x.val + 1) with
  | none => exact .inl ⟨(State.slice_eq_none.mp h).2, rfl⟩
  | some bs =>
    have := (State.slice_eq_some.mp h).1
    exact .inr ⟨bs, by omega, rfl, rfl⟩

theorem execDraw_cases (x y : Reg) (n : Count) (s : State) :
    (n.val ≠ 0 ∧ memSize < s.idx.toNat + n.val ∧ execDraw x y n s = .next (s.trap .boundsViolation (.draw x y n))) ∨
      ∃ rows, (n.val = 0 ∨ s.idx.toNat + n.val ≤ memSize) ∧ s.slice s.idx.toNat n.val = some rows ∧
        execDraw x y n s = .next
          ((s.advance.setDisp (drawRows (s.reg x).toNat (s.reg y).toNat rows (s.disp, false)).1).setReg VF
            (flagByte (drawRows (s.reg x).toNat (s.reg y).toNat rows (s.disp, false)).2)) := by
  unfold execDraw
  cases h : s.slice s.idx.toNat n.val with
  | none => exact .inl ⟨(State.slice_eq_none.mp h).1, (State.slice_eq_none.mp h).2, rfl⟩
  | some rows => exact .inr ⟨rows, (State.slice_eq_some.mp h).1, rfl, rfl⟩

/-- What no instruction changes: the frame output, the inputs and the build. -/
structure SameInterface (s t : State) : Prop where
  frame : t.frame = s.frame
  inputs : t.inputs = s.inputs
  inputNo : t.inputNo = s.inputNo
  cfg : t.cfg = s.cfg

theorem SameInterface.writeRF (s : State) (x : Reg) (res : Byte) (f : Bool) (seq : Byte) :
    SameInterface s (s.advance.writeRF x res f seq) := by
  obtain ⟨v, hv⟩ := s.advance.writeRF_eq_setV x res f seq
  rw [hv]
  exact ⟨rfl, rfl, rfl, rfl⟩

theorem SameInterface.skipIf (s : State) (c : Bool) : SameInterface s (s.skipIf c) := by
  rw [State.skipIf_eq_setPc]
  exact ⟨rfl, rfl, rfl, rfl⟩

/-- Every instruction answers a next state, and leaves the interface and the build alone. -/
theorem exec_next (i : Instr) (s : State) : ∃ t, exec i s = .next t ∧ SameInterface s t := by
  cases i with
  | ret => obtain ⟨-, h⟩ | ⟨w, ws, -, h⟩ := execRet_cases s <;> exact ⟨_, h, rfl, rfl, rfl, rfl⟩
  | call nnn => obtain ⟨-, h⟩ | ⟨-, h⟩ := execCall_cases nnn s <;> exact ⟨_, h, rfl, rfl, rfl, rfl⟩
  | loadBcd x => obtain ⟨-, h⟩ | ⟨-, h⟩ := execLoadBcd_cases x s <;> exact ⟨_, h, rfl, rfl, rfl, rfl⟩
  | storeRegisters x => obtain ⟨-, h⟩ | ⟨-, h⟩ := execStoreRegisters_cases x s <;> exact ⟨_, h, rfl, rfl, rfl, rfl⟩
  | readRegisters x =>
    obtain ⟨-, h⟩ | ⟨bs, -, -, h⟩ := execReadRegisters_cases x s <;> exact ⟨_, h, rfl, rfl, rfl, rfl⟩
  | draw x y n => obtain ⟨-, -, h⟩ | ⟨rows, -, -, h⟩ := execDraw_cases x y n s <;> exact ⟨_, h, rfl, rfl, rfl, rfl⟩
  | keyLoad x =>
    refine ⟨_, rfl, ?_⟩
    obtain ⟨-, h⟩ | ⟨k, -, h⟩ := s.advance.loadKey_cases x s.sample.availKey <;> rw [h] <;> exact ⟨rfl, rfl, rfl, rfl⟩
  | addReg x y => exact ⟨_, rfl, .writeRF ..⟩
  | subReg x y => exact ⟨_, rfl, .writeRF ..⟩
  | subnReg x y => exact ⟨_, rfl, .writeRF ..⟩
  | shiftRight x y => exact ⟨_, rfl, .writeRF ..⟩
  | shiftLeft x y => exact ⟨_, rfl, .writeRF ..⟩
  | skipEqConst x nn => exact ⟨_, rfl, .skipIf ..⟩
  | skipNeqConst x nn => exact ⟨_, rfl, .skipIf ..⟩
  | skipEqReg x y => exact ⟨_, rfl, .skipIf ..⟩
  | skipNeqReg x y => exact ⟨_, rfl, .skipIf ..⟩
  | keyPressSkip x => exact ⟨_, rfl, .skipIf ..⟩
  | keyNotPressSkip x => exact ⟨_, rfl, .skipIf ..⟩
  | clear => exact ⟨_, rfl, rfl, rfl, rfl, rfl⟩
  | machineCall nnn => exact ⟨_, rfl, rfl, rfl, rfl, rfl⟩
  | jump nnn => exact ⟨_, rfl, rfl, rfl, rfl, rfl⟩
  | loadImm x nn => exact ⟨_, rfl, rfl, rfl, rfl, rfl⟩
  | addConst x nn => exact ⟨_, rfl, rfl, rfl, rfl, rfl⟩
  | loadReg x y => exact ⟨_, rfl, rfl, rfl, rfl, rfl⟩
  | orReg x y => exact ⟨_, rfl, rfl, rfl, rfl, rfl⟩
  | andReg x y => exact ⟨_, rfl, rfl, rfl, rfl, rfl⟩
  | xorReg x y => exact ⟨_, rfl, rfl, rfl, rfl, rfl⟩
  | loadIndex nnn => exact ⟨_, rfl, rfl, rfl, rfl, rfl⟩
  | jumpPlusV0 nnn => exact ⟨_, rfl, rfl, rfl, rfl, rfl⟩
  | random x nn => exact ⟨_, rfl, rfl, rfl, rfl, rfl⟩
  | delayTimerLoadFrom x => exact ⟨_, rfl, rfl, rfl, rfl, rfl⟩
  | delayTimerLoadInto x => exact ⟨_, rfl, rfl, rfl, rfl, rfl⟩
  | soundLoad x => exact ⟨_, rfl, rfl, rfl, rfl, rfl⟩
  | addIndex x => exact ⟨_, rfl, rfl, rfl, rfl, rfl⟩
  | locateSprite x => exact ⟨_, rfl, rfl, rfl, rfl, rfl⟩

/-- The sample of a step is the same before and after its instruction. -/
theorem SameInterface.sample {s t : State} (h : SameInterface s t) : t.sample = s.sample := by
  simp only [State.sample, h.inputs, h.inputNo]

end Sys2Proof.Machine
end

