-- ==== Sys2Proof/Laws/PerInstr.lean ====
section
/-! SUPPORT. One lemma per instruction, by family: the high nibble of an encoded instruction is the family the opcode
map gives it (30_encoding.md, section 4). -/

namespace Sys2Proof

/-- The family of each variant, as the opcode map lists it. -/
def Instr.family : Instr → Nat
  | .clear => 0x0
  | .ret => 0x0
  | .machineCall _ => 0x0
  | .jump _ => 0x1
  | .call _ => 0x2
  | .skipEqConst _ _ => 0x3
  | .skipNeqConst _ _ => 0x4
  | .skipEqReg _ _ => 0x5
  | .loadImm _ _ => 0x6
  | .addConst _ _ => 0x7
  | .loadReg _ _ => 0x8
  | .orReg _ _ => 0x8
  | .andReg _ _ => 0x8
  | .xorReg _ _ => 0x8
  | .addReg _ _ => 0x8
  | .subReg _ _ => 0x8
  | .shiftRight _ _ => 0x8
  | .subnReg _ _ => 0x8
  | .shiftLeft _ _ => 0x8
  | .skipNeqReg _ _ => 0x9
  | .loadIndex _ => 0xA
  | .jumpPlusV0 _ => 0xB
  | .random _ _ => 0xC
  | .draw _ _ _ => 0xD
  | .keyPressSkip _ => 0xE
  | .keyNotPressSkip _ => 0xE
  | .delayTimerLoadFrom _ => 0xF
  | .keyLoad _ => 0xF
  | .delayTimerLoadInto _ => 0xF
  | .soundLoad _ => 0xF
  | .addIndex _ => 0xF
  | .locateSprite _ => 0xF
  | .loadBcd _ => 0xF
  | .storeRegisters _ => 0xF
  | .readRegisters _ => 0xF

/-- The statement of the family: the first-level opcode of `encode i` is the family of `i` (R301, R305). -/
def Laws.FamilyNibble.Statement (i : Instr) : Prop := (fieldF (encode i)).val = i.family

namespace Laws.FamilyNibble

theorem clear : Statement .clear := rfl
theorem ret : Statement .ret := rfl
theorem machineCall (nnn : Addr) : Statement (.machineCall nnn) := fieldF_wordA (by decide) ..
theorem jump (nnn : Addr) : Statement (.jump nnn) := fieldF_wordA (by decide) ..
theorem call (nnn : Addr) : Statement (.call nnn) := fieldF_wordA (by decide) ..
theorem skipEqConst (x : Reg) (nn : Byte) : Statement (.skipEqConst x nn) := fieldF_wordXB (by decide) ..
theorem skipNeqConst (x : Reg) (nn : Byte) : Statement (.skipNeqConst x nn) := fieldF_wordXB (by decide) ..
theorem skipEqReg (x y : Reg) : Statement (.skipEqReg x y) := fieldF_wordXYN (by decide) ..
theorem loadImm (x : Reg) (nn : Byte) : Statement (.loadImm x nn) := fieldF_wordXB (by decide) ..
theorem addConst (x : Reg) (nn : Byte) : Statement (.addConst x nn) := fieldF_wordXB (by decide) ..
theorem loadReg (x y : Reg) : Statement (.loadReg x y) := fieldF_wordXYN (by decide) ..
theorem orReg (x y : Reg) : Statement (.orReg x y) := fieldF_wordXYN (by decide) ..
theorem andReg (x y : Reg) : Statement (.andReg x y) := fieldF_wordXYN (by decide) ..
theorem xorReg (x y : Reg) : Statement (.xorReg x y) := fieldF_wordXYN (by decide) ..
theorem addReg (x y : Reg) : Statement (.addReg x y) := fieldF_wordXYN (by decide) ..
theorem subReg (x y : Reg) : Statement (.subReg x y) := fieldF_wordXYN (by decide) ..
theorem shiftRight (x y : Reg) : Statement (.shiftRight x y) := fieldF_wordXYN (by decide) ..
theorem subnReg (x y : Reg) : Statement (.subnReg x y) := fieldF_wordXYN (by decide) ..
theorem shiftLeft (x y : Reg) : Statement (.shiftLeft x y) := fieldF_wordXYN (by decide) ..
theorem skipNeqReg (x y : Reg) : Statement (.skipNeqReg x y) := fieldF_wordXYN (by decide) ..
theorem loadIndex (nnn : Addr) : Statement (.loadIndex nnn) := fieldF_wordA (by decide) ..
theorem jumpPlusV0 (nnn : Addr) : Statement (.jumpPlusV0 nnn) := fieldF_wordA (by decide) ..
theorem random (x : Reg) (nn : Byte) : Statement (.random x nn) := fieldF_wordXB (by decide) ..
theorem draw (x y : Reg) (n : Count) : Statement (.draw x y n) := fieldF_wordXYN (by decide) ..
theorem keyPressSkip (x : Reg) : Statement (.keyPressSkip x) := fieldF_wordXB (by decide) ..
theorem keyNotPressSkip (x : Reg) : Statement (.keyNotPressSkip x) := fieldF_wordXB (by decide) ..
theorem delayTimerLoadFrom (x : Reg) : Statement (.delayTimerLoadFrom x) := fieldF_wordXB (by decide) ..
theorem keyLoad (x : Reg) : Statement (.keyLoad x) := fieldF_wordXB (by decide) ..
theorem delayTimerLoadInto (x : Reg) : Statement (.delayTimerLoadInto x) := fieldF_wordXB (by decide) ..
theorem soundLoad (x : Reg) : Statement (.soundLoad x) := fieldF_wordXB (by decide) ..
theorem addIndex (x : Reg) : Statement (.addIndex x) := fieldF_wordXB (by decide) ..
theorem locateSprite (x : Reg) : Statement (.locateSprite x) := fieldF_wordXB (by decide) ..
theorem loadBcd (x : Reg) : Statement (.loadBcd x) := fieldF_wordXB (by decide) ..
theorem storeRegisters (x : Reg) : Statement (.storeRegisters x) := fieldF_wordXB (by decide) ..
theorem readRegisters (x : Reg) : Statement (.readRegisters x) := fieldF_wordXB (by decide) ..

end Laws.FamilyNibble

end Sys2Proof
end

