-- ==== Sys2Proof/Laws/Step.lean ====
section
/-! SUPPORT. Everything a step can do. -/

namespace Sys2Proof.Machine

@[simp] theorem State.clearFrame_fetch (s : State) : s.clearFrame.fetch = s.fetch := rfl
@[simp] theorem State.clearFrame_sample (s : State) : s.clearFrame.sample = s.sample := rfl

/-- Everything parts 5 and 6 can do after an instruction that raised no fault. -/
theorem State.finish_cases (s : State) (a w : Word) :
    (s.sample.presentOk = false ∧ s.finish a w = s.present.raise .presentFailure a (some w)) ∨
    (s.sample.presentOk = true ∧ s.sample.running = true ∧ s.finish a w = s.present.tick) ∨
    (s.sample.presentOk = true ∧ s.sample.running = false ∧ s.finish a w = s.present.tick.stop) := by
  unfold State.finish State.finishTimers
  cases s.sample.presentOk <;> cases s.sample.running <;> simp

/-- Everything a step that answers a next state can have done: the block was running, and the step ended in its fetch,
in its decode, or after an instruction. -/
theorem step_cases {s t : State} (h : step s = .next t) : s.status = .running ∧
    ((s.fetch = none ∧ t = (s.clearFrame.raise .boundsViolation s.pc none).dropSample) ∨
    ∃ w, s.fetch = some w ∧
      ((∃ e, decodeWord s.cfg.lowNibbleCheck59 w = .error e ∧
          t = (s.clearFrame.raise .decodeFailure s.pc (some w)).dropSample) ∨
        ∃ i u, decodeWord s.cfg.lowNibbleCheck59 w = .ok i ∧ exec i s.clearFrame = .next u ∧
          t = (u.afterExec s.pc w).dropSample)) := by
  unfold step at h
  split at h
  · next hs =>
    refine ⟨hs, ?_⟩
    unfold cycle at h
    simp only [State.clearFrame_fetch, State.clearFrame_pc, State.clearFrame_cfg] at h
    cases hf : s.fetch with
    | none =>
      simp only [hf, mapNext, Host.Outcome.next.injEq] at h
      exact .inl ⟨rfl, h.symm⟩
    | some w =>
      refine .inr ⟨w, rfl, ?_⟩
      simp only [hf] at h
      cases hd : decodeWord s.cfg.lowNibbleCheck59 w with
      | error e =>
        simp only [hd, mapNext, Host.Outcome.next.injEq] at h
        exact .inl ⟨e, rfl, h.symm⟩
      | ok i =>
        obtain ⟨u, hu, -⟩ := exec_next i s.clearFrame
        simp only [hd, hu, mapNext, Host.Outcome.next.injEq] at h
        exact .inr ⟨i, u, rfl, hu, h.symm⟩
  · cases h
  · cases h

/-- A running block always has a step. -/
theorem step_of_running {s : State} (h : s.status = .running) : ∃ t, step s = .next t := by
  unfold step cycle
  simp only [h, State.clearFrame_fetch, State.clearFrame_pc, State.clearFrame_cfg]
  cases s.fetch with
  | none => exact ⟨_, rfl⟩
  | some w =>
    cases hd : decodeWord s.cfg.lowNibbleCheck59 w with
    | error e => exact ⟨_, by simp only [hd]; rfl⟩
    | ok i =>
      obtain ⟨u, hu, -⟩ := exec_next i s.clearFrame
      exact ⟨_, by simp only [hd, hu]; rfl⟩

end Sys2Proof.Machine
end

