-- ==== Sys2Proof/Tests/Slice0.lean ====
section
/-! SUPPORT. The model's own tests. The expected results come from the spec: the words from the opcode map and formats
of 30_encoding.md, the steps from the vectors of 95_test_vectors.md (E1 to E14, V1 to V153, named beside each test).
The last part shows, for every statement with hypotheses, states and operands that meet them. -/

namespace Sys2Proof.Tests

open Sys2Proof Sys2Proof.Machine Sys2Proof.Claims

/-! ### Helpers -/

/-- The inputs of the vectors: nothing pressed, the frame presented, the run to go on. -/
def idle : Inputs where
  keysDown := 0#16
  availKey := none
  presentOk := true
  running := true

/-- Reset, with idle inputs for the next steps. -/
def quiet : State := { State.reset with inputs := [idle, idle, idle] }

/-- Reset, with the given inputs for the next step. -/
def given (inp : Inputs) : State := { State.reset with inputs := [inp] }

/-- `s` with the instruction word `w` at PC. -/
def at_ (s : State) (w : Nat) : State := s.withFetchWord 16 w

/-- `s` with bytes in memory from address `a` on. -/
def poke (s : State) (a : Nat) (bytes : List Byte) : State := { s with mem := Memory.setBytes s.mem a bytes }

/-- `s` with the given lit pixels. -/
def lit (s : State) (ps : List (Nat × Nat)) : State :=
  { s with disp := ps.foldl (fun d p => (dispSet d p.1 p.2 true).1) s.disp }

/-- `s` in a build with the given `VF_DEST_POLICY`. -/
def policy (s : State) (p : VfDestPolicy) : State := { s with cfg := { s.cfg with vfDestPolicy := p } }

/-- One step answers a next state, of which `p` holds. -/
def steps (s : State) (p : State → Bool) : Bool :=
  match step s with
  | .next t => p t
  | .fault _ => false
  | .refused _ => false

/-- The status is the fault with this record. -/
def faulted (t : State) (cause : FaultCause) (a : Word) (w : Option Word) : Bool :=
  t.status == .faulted { cause := cause, pc := a, word := w }

/-- The memory bytes from `a` on. -/
def peek (t : State) (a n : Nat) : List Byte := (List.range' a n).map (Memory.byte t.mem)

/-! ### WellFormed: one ill-formed term for each check (R306) -/

theorem test_wf_refuses_machineCall_0E0 : ¬ WellFormed (.machineCall 0x0E0#12) := by decide
theorem test_wf_refuses_machineCall_0EE : ¬ WellFormed (.machineCall 0x0EE#12) := by decide
theorem test_wf_accepts_machineCall_0E1 : WellFormed (.machineCall 0x0E1#12) := by decide

/-! ### Decoding: the words written out from R303 and R306 to R311, nibble by nibble -/

theorem test_decode_family0 :
    decodeWord false 0b0000_0000_1110_0000#16 = .ok .clear ∧
    decodeWord false 0b0000_0000_1110_1110#16 = .ok .ret ∧
    decodeWord false 0b0000_0001_0010_0011#16 = .ok (.machineCall 0x123#12) ∧
    decodeWord false 0b0000_0000_0000_0000#16 = .ok (.machineCall 0x000#12) := by decide
theorem test_decode_addresses :
    decodeWord false 0b0001_1010_1011_1100#16 = .ok (.jump 0xABC#12) ∧
    decodeWord false 0b0010_0011_0000_0001#16 = .ok (.call 0x301#12) ∧
    decodeWord false 0b1010_1111_1111_1110#16 = .ok (.loadIndex 0xFFE#12) ∧
    decodeWord false 0b1011_0011_0000_0100#16 = .ok (.jumpPlusV0 0x304#12) := by decide
theorem test_decode_register_byte :
    decodeWord false 0b0011_0011_0000_0101#16 = .ok (.skipEqConst 3 0x05#8) ∧
    decodeWord false 0b0100_1100_1010_0101#16 = .ok (.skipNeqConst 0xC 0xA5#8) ∧
    decodeWord false 0b0110_1010_1100_1000#16 = .ok (.loadImm 0xA 0xC8#8) ∧
    decodeWord false 0b0111_0001_1111_1110#16 = .ok (.addConst 1 0xFE#8) ∧
    decodeWord false 0b1100_0010_0000_1111#16 = .ok (.random 2 0x0F#8) := by decide
theorem test_decode_families_5_9_D :
    decodeWord true 0b0101_0001_0010_0000#16 = .ok (.skipEqReg 1 2) ∧
    decodeWord true 0b1001_0010_0001_0000#16 = .ok (.skipNeqReg 2 1) ∧
    decodeWord false 0b0101_0001_0010_0001#16 = .ok (.skipEqReg 1 2) ∧
    decodeWord false 0b1001_0001_0010_1111#16 = .ok (.skipNeqReg 1 2) ∧
    decodeWord true 0b1101_0001_0010_0011#16 = .ok (.draw 1 2 3) := by decide
theorem test_decode_family8 :
    decodeWord false 0b1000_0010_0001_0000#16 = .ok (.loadReg 2 1) ∧
    decodeWord false 0b1000_0010_0001_0001#16 = .ok (.orReg 2 1) ∧
    decodeWord false 0b1000_0010_0001_0010#16 = .ok (.andReg 2 1) ∧
    decodeWord false 0b1000_0010_0001_0011#16 = .ok (.xorReg 2 1) ∧
    decodeWord false 0b1000_0010_0001_0100#16 = .ok (.addReg 2 1) ∧
    decodeWord false 0b1000_0010_0001_0101#16 = .ok (.subReg 2 1) ∧
    decodeWord false 0b1000_0010_0001_0110#16 = .ok (.shiftRight 2 1) ∧
    decodeWord false 0b1000_0010_0001_0111#16 = .ok (.subnReg 2 1) ∧
    decodeWord false 0b1000_0010_0001_1110#16 = .ok (.shiftLeft 2 1) := by decide
theorem test_decode_families_E_F :
    decodeWord false 0b1110_0100_1001_1110#16 = .ok (.keyPressSkip 4) ∧
    decodeWord false 0b1110_0100_1010_0001#16 = .ok (.keyNotPressSkip 4) ∧
    decodeWord false 0b1111_0011_0000_0111#16 = .ok (.delayTimerLoadFrom 3) ∧
    decodeWord false 0b1111_0101_0000_1010#16 = .ok (.keyLoad 5) ∧
    decodeWord false 0b1111_0000_0001_0101#16 = .ok (.delayTimerLoadInto 0) ∧
    decodeWord false 0b1111_0010_0001_1000#16 = .ok (.soundLoad 2) ∧
    decodeWord false 0b1111_0001_0001_1110#16 = .ok (.addIndex 1) ∧
    decodeWord false 0b1111_1010_0010_1001#16 = .ok (.locateSprite 0xA) ∧
    decodeWord false 0b1111_0110_0011_0011#16 = .ok (.loadBcd 6) ∧
    decodeWord false 0b1111_1111_0101_0101#16 = .ok (.storeRegisters 0xF) ∧
    decodeWord false 0b1111_0111_0110_0101#16 = .ok (.readRegisters 7) := by decide
/-- E12, V1 to V8. -/
theorem test_decode_failures :
    decodeWord false 0x8008#16 = .error (.family8 8) ∧ decodeWord false 0x800F#16 = .error (.family8 0xF) ∧
    decodeWord false 0xE000#16 = .error (.familyE 0x00#8) ∧ decodeWord false 0xE19F#16 = .error (.familyE 0x9F#8) ∧
    decodeWord false 0xF000#16 = .error (.familyF 0x00#8) ∧ decodeWord false 0xFFFF#16 = .error (.familyF 0xFF#8) ∧
    decodeWord true 0x5121#16 = .error (.lowNibble59 1) ∧ decodeWord true 0x912F#16 = .error (.lowNibble59 0xF) ∧
    decode false [0x60#8] = .error .truncated := by decide
/-- R202: the first byte is the high one; the bytes after the word are left. -/
theorem test_decode_bytes : decode false [0x6A#8, 0xC8#8, 0x6B#8] = .ok (.loadImm 0xA 0xC8#8, [0x6B#8]) := by decide
theorem test_decode_table_word :
    decodeTableWord 16 0xD123 = some (.draw 1 2 3) ∧ decodeTableWord 16 0xE19F = none := by decide

/-! ### Fetch, decode and cycle outcomes -/

/-- V1, V9. -/
theorem test_decode_failure_step :
    steps (at_ quiet 0x8008) (fun t => faulted t .decodeFailure 0x200#16 (some 0x8008#16) && t.pc == 0x200#16 &&
      t.dt == 255#8 && t.st == 255#8 && t.frame == none) = true := by decide
/-- V11. -/
theorem test_fetch_past_memory :
    steps { quiet with pc := 0xFFF#16 } (fun t => faulted t .boundsViolation 0xFFF#16 none && t.pc == 0xFFF#16 &&
      t.dt == 255#8) = true := by decide
/-- V12. -/
theorem test_fetch_last_word :
    steps (at_ { quiet with pc := 0xFFE#16 } 0x6007) (fun t => t.reg 0 == 7#8 && t.pc == 0x1000#16) = true := by decide
/-- V14: an empty ROM. -/
theorem test_empty_rom :
    steps quiet (fun t => faulted t .machineCall 0x200#16 (some 0#16) && t.pc == 0x200#16) = true := by decide
/-- V150. -/
theorem test_stop :
    steps (at_ (given { idle with running := false }) 0x6005) (fun t => t.reg 0 == 5#8 && t.pc == 0x202#16 &&
      t.dt == 254#8 && t.st == 254#8 && t.status == .stopped) = true := by decide
/-- V152: the present fault comes before the stop; V151 for the timers. -/
theorem test_present_failure :
    steps (at_ (given { idle with presentOk := false, running := false }) 0x6005) (fun t => t.reg 0 == 5#8 &&
      t.pc == 0x202#16 && t.dt == 255#8 && faulted t .presentFailure 0x200#16 (some 0x6005#16)) = true := by decide
/-- E8 and R630: a timer at 0 stays there; the two are independent (V136). -/
theorem test_timer_floor :
    steps (at_ { quiet with dt := 0#8, st := 5#8 } 0x1200) (fun t => t.dt == 0#8 && t.st == 4#8) = true := by decide
/-- R112: a stopped block has no step. -/
theorem test_no_step_after_stop : step { quiet with status := .stopped } = .fault .runStopped := by rfl

/-! ### Control flow -/

/-- V24. -/
theorem test_ret : steps (at_ { quiet with pc := 0x300#16, stack := [0x206#16] } 0x00EE)
    (fun t => t.pc == 0x206#16 && t.stack == []) = true := by decide
/-- V25. -/
theorem test_ret_empty : steps (at_ quiet 0x00EE) (fun t => faulted t .stackUnderflow 0x200#16 (some 0x00EE#16) &&
    t.pc == 0x202#16 && t.dt == 255#8) = true := by decide
/-- V10. -/
theorem test_machineCall : steps (at_ quiet 0x0FFF) (fun t => faulted t .machineCall 0x200#16 (some 0x0FFF#16) &&
    t.pc == 0x200#16) = true := by decide
/-- V20. -/
theorem test_jump : steps (at_ quiet 0x1ABC) (fun t => t.pc == 0xABC#16) = true := by decide
/-- V23. -/
theorem test_call : steps (at_ { quiet with pc := 0x204#16 } 0x2300)
    (fun t => t.pc == 0x300#16 && t.stack == [0x206#16]) = true := by decide
/-- V26, at depth 1. -/
theorem test_call_full :
    steps (at_ { quiet with stack := [0x206#16], cfg := { defaultConfig with stackDepth := some 1 } } 0x2200)
      (fun t => faulted t .stackOverflow 0x200#16 (some 0x2200#16) && t.pc == 0x202#16 && t.stack == [0x206#16])
      = true := by decide
/-- V30. -/
theorem test_jumpPlusV0_no_wrap : steps (at_ (quiet.setReg 0 0xFF#8) 0xBFFF) (fun t => t.pc == 0x10FE#16) = true := by
  decide
/-- V31: V0 is added, not Vx. -/
theorem test_jumpPlusV0_reads_v0 : steps (at_ ((quiet.setReg 0 1#8).setReg 2 0x50#8) 0xB200)
    (fun t => t.pc == 0x201#16) = true := by decide

/-! ### Skips -/

/-- V40, V41. -/
theorem test_skipEqConst : steps (at_ (quiet.setReg 3 5#8) 0x3305) (fun t => t.pc == 0x204#16) = true ∧
    steps (at_ (quiet.setReg 3 4#8) 0x3305) (fun t => t.pc == 0x202#16) = true := by decide
/-- V42, V43. -/
theorem test_skipNeqConst : steps (at_ (quiet.setReg 3 4#8) 0x4305) (fun t => t.pc == 0x204#16) = true ∧
    steps (at_ (quiet.setReg 3 5#8) 0x4305) (fun t => t.pc == 0x202#16) = true := by decide
/-- V7 (`false`), V44. -/
theorem test_skipEqReg :
    steps (at_ ((quiet.setReg 1 0x33#8).setReg 2 0x33#8) 0x5121) (fun t => t.pc == 0x204#16) = true ∧
    steps (at_ ((quiet.setReg 1 0x33#8).setReg 2 0x34#8) 0x5120) (fun t => t.pc == 0x202#16) = true := by decide
/-- V8 (`false`), V46. -/
theorem test_skipNeqReg :
    steps (at_ ((quiet.setReg 1 0x33#8).setReg 2 0x34#8) 0x912F) (fun t => t.pc == 0x204#16) = true ∧
    steps (at_ quiet 0x9110) (fun t => t.pc == 0x202#16) = true := by decide
/-- V49, V51. -/
theorem test_keyPressSkip :
    steps (at_ ((given { idle with keysDown := 0x0400#16 }).setReg 4 0x1A#8) 0xE49E) (fun t => t.pc == 0x204#16)
      = true ∧
    steps (at_ (quiet.setReg 4 7#8) 0xE49E) (fun t => t.pc == 0x202#16) = true := by decide
/-- V50, V51. -/
theorem test_keyNotPressSkip :
    steps (at_ ((given { idle with keysDown := 0x0400#16 }).setReg 4 0x1A#8) 0xE4A1) (fun t => t.pc == 0x202#16)
      = true ∧
    steps (at_ (quiet.setReg 4 7#8) 0xE4A1) (fun t => t.pc == 0x204#16) = true := by decide
/-- V47: the skipped word would fail to decode. V48: no wrap at the top. -/
theorem test_skip_over_anything :
    steps (poke (at_ quiet 0x3000) 0x202 [0xFF#8, 0xFF#8]) (fun t => t.pc == 0x204#16 && t.status == .running) = true ∧
    steps (at_ { quiet with pc := 0xFFE#16 } 0x3F00) (fun t => t.pc == 0x1002#16) = true := by decide

/-! ### Registers and ALU -/

/-- V60. -/
theorem test_loadImm : steps (at_ quiet 0x6AC8) (fun t => t.reg 0xA == 0xC8#8) = true := by decide
/-- V61, V62. -/
theorem test_addConst :
    steps (at_ (quiet.setReg 0 0xFF#8) 0x7001) (fun t => t.reg 0 == 0#8 && t.reg VF == 0#8) = true ∧
    steps (at_ (quiet.setReg VF 1#8) 0x7FFF) (fun t => t.reg VF == 0#8) = true := by decide
/-- V63. -/
theorem test_loadReg : steps (at_ (quiet.setReg 1 0x14#8) 0x8210) (fun t => t.reg 2 == 0x14#8) = true := by decide
/-- V64. -/
theorem test_orReg : steps (at_ (((quiet.setReg 0 0xF0#8).setReg 1 0x0F#8).setReg VF 7#8) 0x8011)
    (fun t => t.reg 0 == 0xFF#8 && t.reg VF == 7#8) = true := by decide
/-- V65. -/
theorem test_andReg : steps (at_ (((quiet.setReg 0 0xF3#8).setReg 1 0x3F#8).setReg VF 7#8) 0x8012)
    (fun t => t.reg 0 == 0x33#8 && t.reg VF == 7#8) = true := by decide
/-- R465 and V66. -/
theorem test_xorReg : steps (at_ ((quiet.setReg 0 0xFF#8).setReg 1 0x0F#8) 0x8013) (fun t => t.reg 0 == 0xF0#8) = true ∧
    steps (at_ ((quiet.setReg 0 0x5A#8).setReg VF 7#8) 0x8003) (fun t => t.reg 0 == 0#8 && t.reg VF == 7#8) = true := by
  decide
/-- E1, V69. -/
theorem test_addReg :
    steps (at_ ((quiet.setReg 0 200#8).setReg 1 100#8) 0x8014) (fun t => t.reg 0 == 44#8 && t.reg VF == 1#8) = true ∧
    steps (at_ ((quiet.setReg 0 0x10#8).setReg VF 5#8) 0x80F4) (fun t => t.reg 0 == 0x15#8 && t.reg VF == 0#8) = true :=
  by decide
/-- E3, V70. -/
theorem test_subReg :
    steps (at_ ((quiet.setReg 0 10#8).setReg 1 20#8) 0x8015) (fun t => t.reg 0 == 246#8 && t.reg VF == 0#8) = true ∧
    steps (at_ ((quiet.setReg 0 0x42#8).setReg 1 0x42#8) 0x8015) (fun t => t.reg 0 == 0#8 && t.reg VF == 1#8) = true :=
  by decide
/-- V72, V73. -/
theorem test_subnReg :
    steps (at_ ((quiet.setReg 0 0x0A#8).setReg 1 0x14#8) 0x8017) (fun t => t.reg 0 == 0x0A#8 && t.reg VF == 1#8) = true ∧
    steps (at_ ((quiet.setReg 0 0x14#8).setReg 1 0x0A#8) 0x8017) (fun t => t.reg 0 == 0xF6#8 && t.reg VF == 0#8) = true :=
  by decide
/-- E5, V75. -/
theorem test_shiftRight :
    steps (at_ (quiet.setReg 0 0xB3#8) 0x8006) (fun t => t.reg 0 == 0x59#8 && t.reg VF == 1#8) = true ∧
    steps (at_ ((quiet.setReg 0 1#8).setReg 1 0xAA#8) 0x8016)
      (fun t => t.reg 0 == 0#8 && t.reg 1 == 0xAA#8 && t.reg VF == 1#8) = true := by decide
/-- V77, V79. -/
theorem test_shiftLeft :
    steps (at_ (quiet.setReg 0 0xB3#8) 0x800E) (fun t => t.reg 0 == 0x66#8 && t.reg VF == 1#8) = true ∧
    steps (at_ (quiet.setReg 0 0x7F#8) 0x800E) (fun t => t.reg 0 == 0xFE#8 && t.reg VF == 0#8) = true := by decide
/-- V80. -/
theorem test_vf_destination_add :
    ∀ q ∈ [(VfDestPolicy.flagLast, 0x01#8), (.resultLast, 0x10#8), (.sequential, 0x01#8)],
      steps (at_ ((policy (quiet.setReg 1 0x80#8) q.1).setReg VF 0x90#8) 0x8F14) (fun t => t.reg VF == q.2) = true := by
  decide
/-- V81, V82. -/
theorem test_vf_destination_sub :
    ∀ q ∈ [(VfDestPolicy.flagLast, 0x01#8, 0x00#8), (.resultLast, 0x02#8, 0xFE#8), (.sequential, 0x01#8, 0x00#8)],
      steps (at_ ((policy (quiet.setReg 1 3#8) q.1).setReg VF 5#8) 0x8F15) (fun t => t.reg VF == q.2.1) = true ∧
      steps (at_ ((policy (quiet.setReg 1 3#8) q.1).setReg VF 5#8) 0x8F17) (fun t => t.reg VF == q.2.2) = true := by
  decide
/-- V83, V84. -/
theorem test_vf_destination_shift :
    ∀ q ∈ [(VfDestPolicy.flagLast, 0x01#8, 0x01#8), (.resultLast, 0x02#8, 0x82#8), (.sequential, 0x00#8, 0x02#8)],
      steps (at_ ((policy quiet q.1).setReg VF 5#8) 0x8F06) (fun t => t.reg VF == q.2.1) = true ∧
      steps (at_ ((policy quiet q.1).setReg VF 0xC1#8) 0x8F0E) (fun t => t.reg VF == q.2.2) = true := by decide

/-! ### Index register and memory -/

/-- V90. -/
theorem test_loadIndex : steps (at_ quiet 0xAFFF) (fun t => t.idx == 0x0FFF#16) = true := by decide
/-- V92, V93. -/
theorem test_addIndex :
    steps (at_ ({ quiet with idx := 0xFFFF#16 }.setReg 1 1#8) 0xF11E) (fun t => t.idx == 0#16) = true ∧
    steps (at_ ({ quiet with idx := 0x0FFF#16 }.setReg 1 1#8) 0xF11E)
      (fun t => t.idx == 0x1000#16 && t.reg VF == 0#8 && t.status == .running) = true := by decide
/-- V94, V96. -/
theorem test_locateSprite : steps (at_ (quiet.setReg 3 0x0A#8) 0xF329) (fun t => t.idx == 0x082#16) = true ∧
    steps (at_ (quiet.setReg 3 0xFF#8) 0xF329) (fun t => t.idx == 0x54B#16) = true := by decide
/-- V95 in a build of its own. -/
theorem test_locateSprite_high :
    steps (at_ ({ quiet with cfg := { defaultConfig with fontAddrHigh := [(0x10#8, 0x50#16)] } }.setReg 3 0x10#8) 0xF329)
      (fun t => t.idx == 0x50#16) = true := by decide
/-- E9, V99: the last three bytes of memory. -/
theorem test_loadBcd : steps (at_ ({ quiet with idx := 0xFFD#16 }.setReg 0 157#8) 0xF033)
    (fun t => peek t 0xFFD 3 == [1#8, 5#8, 7#8] && t.idx == 0xFFD#16) = true := by decide
/-- V100. -/
theorem test_loadBcd_bounds : steps (at_ ({ quiet with idx := 0xFFE#16 }.setReg 0 157#8) 0xF033)
    (fun t => faulted t .boundsViolation 0x200#16 (some 0xF033#16) && t.pc == 0x202#16 && peek t 0xFFE 2 == [0#8, 0#8] &&
      t.dt == 255#8) = true := by decide
/-- V101. -/
theorem test_storeRegisters :
    steps (at_ ((({ quiet with idx := 0x314#16 }.setReg 0 0xF6#8).setReg 1 0x14#8).setReg 2 0x0A#8) 0xF255)
      (fun t => peek t 0x313 5 == [0#8, 0xF6#8, 0x14#8, 0x0A#8, 0#8] && t.idx == 0x314#16) = true := by decide
/-- V103. -/
theorem test_storeRegisters_bounds : steps (at_ ({ quiet with idx := 0xFF1#16 }.setReg 0 1#8) 0xFF55)
    (fun t => faulted t .boundsViolation 0x200#16 (some 0xFF55#16) && peek t 0xFF1 1 == [0#8]) = true := by decide
/-- V105: the glyph of 0. -/
theorem test_readRegisters : steps (at_ ({ quiet with idx := 0x050#16 }.setReg 5 9#8) 0xF465)
    (fun t => [t.reg 0, t.reg 1, t.reg 2, t.reg 3, t.reg 4, t.reg 5] == [0xF0#8, 0x90#8, 0x90#8, 0x90#8, 0xF0#8, 9#8])
      = true := by decide
/-- V106. -/
theorem test_readRegisters_bounds : steps (at_ ({ quiet with idx := 0xFFF#16 }.setReg 0 0x12#8) 0xF165)
    (fun t => faulted t .boundsViolation 0x200#16 (some 0xF165#16) && t.reg 0 == 0x12#8) = true := by decide
/-- Memory's canonical form: writing what an unlisted address reads as removes the entry (R118: 0x50 holds F0). -/
theorem test_memory_canonical :
    Memory.set (Memory.set [] 0x50 1#8) 0x50 0xF0#8 = [] ∧
    Memory.set (Memory.set [] 0x301 7#8) 0x300 6#8 = [(0x300, 6#8), (0x301, 7#8)] ∧
    Memory.wf [(0x300, 6#8), (0x301, 7#8)] = true ∧ Memory.wf [(0x301, 7#8), (0x300, 6#8)] = false ∧
    Memory.wf [(0x300, 0#8)] = false := by decide

/-! ### Display -/

/-- The pixels, as column and row, are all lit in the buffer, or all off. -/
def pixels (d : Disp) (on : Bool) (ps : List (Nat × Nat)) : Bool := ps.all fun p => d.get p.1 p.2 == on

/-- V110, and the frame of the step (R405). -/
theorem test_clear : steps (at_ (lit (quiet.setReg VF 7#8) [(63, 31)]) 0x00E0)
    (fun t => pixels t.disp false [(0, 0), (63, 31)] && t.reg VF == 7#8 &&
      t.frame.any fun f => pixels f false [(0, 0), (63, 31)]) = true := by decide
/-- E7: x = 62 wraps to columns 62, 63, 0 to 5. -/
theorem test_draw_wraps :
    steps (at_ (poke ({ quiet with idx := 0x300#16 }.setReg 0 62#8) 0x300 [0xFF#8]) 0xD011)
      (fun t => pixels t.disp true [(62, 0), (63, 0), (0, 0), (5, 0)] && pixels t.disp false [(61, 0), (6, 0), (0, 1)] &&
        t.reg VF == 0#8) = true := by decide
/-- V115: the collision. -/
theorem test_draw_collides :
    steps (at_ (poke (lit { quiet with idx := 0x300#16 } [(2, 0), (6, 0)]) 0x300 [0xF0#8]) 0xD011)
      (fun t => pixels t.disp true [(0, 0), (1, 0), (3, 0), (6, 0)] && pixels t.disp false [(2, 0), (4, 0)] &&
        t.reg VF == 1#8) = true := by decide
/-- V116, V118. -/
theorem test_draw_bounds :
    steps (at_ ({ quiet with idx := 0xFFFF#16 }.setReg VF 1#8) 0xD010)
      (fun t => t.reg VF == 0#8 && t.status == .running) = true ∧
    steps (at_ ({ quiet with idx := 0xFFF#16 }.setReg VF 1#8) 0xD012)
      (fun t => faulted t .boundsViolation 0x200#16 (some 0xD012#16) && t.reg VF == 1#8) = true :=
  by decide
/-- V119: the coordinate is VF before its reset; V153: the frame shows the drawing. -/
theorem test_draw_at_vf :
    steps (at_ (poke ({ quiet with idx := 0x300#16 }.setReg VF 0x3C#8) 0x300 [0x80#8]) 0xDF01)
      (fun t => pixels t.disp true [(60, 0)] && pixels t.disp false [(61, 0), (0, 0)] && t.reg VF == 0#8 &&
        t.frame.any fun f => pixels f true [(60, 0)]) = true := by decide

/-! ### Timers, key wait, random -/

/-- V130. -/
theorem test_delayTimerLoadFrom : steps (at_ { quiet with dt := 242#8 } 0xF307)
    (fun t => t.reg 3 == 242#8 && t.dt == 241#8) = true := by decide
/-- V132, V133. -/
theorem test_delayTimerLoadInto :
    steps (at_ (quiet.setReg 0 0xF6#8) 0xF015) (fun t => t.dt == 245#8 && t.st == 254#8) = true ∧
    steps (at_ quiet 0xF015) (fun t => t.dt == 0#8) = true := by decide
/-- V135. -/
theorem test_soundLoad : steps (at_ (quiet.setReg 2 3#8) 0xF218) (fun t => t.st == 2#8 && t.dt == 254#8) = true := by
  decide
/-- V137, with the frame of a waiting step. -/
theorem test_keyLoad_waits : steps (at_ (quiet.setReg 5 9#8) 0xF50A) (fun t => t.pc == 0x200#16 && t.reg 5 == 9#8 &&
    t.dt == 254#8 && t.st == 254#8 && t.frame.isSome) = true := by decide
/-- V138, V139. -/
theorem test_keyLoad_stores :
    steps (at_ (given { idle with availKey := some 0xC }) 0xF50A) (fun t => t.reg 5 == 0x0C#8 && t.pc == 0x202#16)
      = true ∧
    steps (at_ (given { idle with availKey := some 3 }) 0xFF0A) (fun t => t.reg VF == 3#8) = true := by decide
/-- V140: for every sequence that starts with A7. -/
theorem test_random (h : Config.rngStream 0 = 0xA7#8) :
    ∃ t, exec (.random 1 0x0F#8) quiet = .next t ∧ t.reg 1 = 0x07#8 ∧ t.rngN = 1 := by
  refine ⟨_, rfl, ?_, rfl⟩
  show Config.rngStream 0 &&& 0x0F#8 = 0x07#8
  rw [h]; decide

/-! ### Reset and launch -/

/-- R700 items 1 and 2, R118: the ends of the font table and the bytes beside it. -/
theorem test_reset_memory :
    peek State.reset 0x4F 2 = [0x00#8, 0xF0#8] ∧ peek State.reset 0x9F 2 = [0x80#8, 0x00#8] ∧
    peek State.reset 0x82 5 = [0xF0#8, 0x90#8, 0xF0#8, 0x90#8, 0x90#8] ∧ peek State.reset 0x200 2 = [0#8, 0#8] := by
  decide
/-- R701, with a font of ones in place of the default. -/
theorem test_launch :
    (match launch defaultConfig (Vector.replicate 80 1#8) [0x00#8, 0xE0#8, 0x12#8] [] with
     | .next t => peek t 0x4F 2 == [0#8, 1#8] && peek t 0x9F 2 == [1#8, 0#8] &&
         peek t 0x1FF 5 == [0#8, 0x00#8, 0xE0#8, 0x12#8, 0#8] && t.pc == 0x200#16
     | .fault _ => false
     | .refused _ => false) = true := by decide

/-! ### Witnesses: states and operands that meet the hypotheses of each statement, clause by clause, at the ends of the
ranges -/

/-- The block has just been given the instruction word `w`, with idle inputs. -/
theorem at_instruction (w : Word) (i : Instr) (h : (at_ quiet w.toNat).fetch = some w)
    (hd : decodeWord false w = .ok i) : AtInstruction (at_ quiet w.toNat) w i := ⟨rfl, h, hd⟩

theorem witness_DecodeOfEncodedInstruction :
    WellFormed (.machineCall 0x0DF#12) ∧ WellFormed (.machineCall 0xFFF#12) ∧ WellFormed (.draw 15 15 15) := by decide
theorem witness_EncodeOfDecodedWord :
    decodeWord true 0x8AB4#16 = .ok (.addReg 0xA 0xB) ∧ decodeWord false 0x512F#16 = .ok (.skipEqReg 1 2) ∧
    decodeWord false 0x912F#16 = .ok (.skipNeqReg 1 2) := by decide
theorem witness_DecodeFailsExactlyOnUnassignedWords :
    (fieldF 0x8008#16 = 8 ∧ fieldN 0x8008#16 = 8) ∧ (fieldF 0xEF9F#16 = 0xE ∧ fieldNN 0xEF9F#16 = 0x9F#8) ∧
    (fieldF 0xF066#16 = 0xF ∧ fieldNN 0xF066#16 = 0x66#8) ∧ (fieldF 0x5001#16 = 5 ∧ fieldN 0x5001#16 ≠ 0) ∧
    (fieldF 0x900F#16 = 9 ∧ fieldN 0x900F#16 ≠ 0) := by decide
theorem witness_ReturnPopsTheCallStack :
    { quiet with stack := [0x1000#16] }.stack = 0x1000#16 :: [] ∧ 4094 < (0x1000#16).toNat ∧ quiet.stack = [] := by
  decide
theorem witness_ReturnPopsTheCallStack_bounds :
    { quiet with stack := [0x002#16, 0x1000#16] }.PcBounded := ⟨by decide, by simp⟩
theorem witness_CallPushesTheReturnAddress :
    quiet.cfg.stackDepth ≠ some quiet.stack.length ∧
    { quiet with cfg := { defaultConfig with stackDepth := some 1 } }.cfg.stackDepth ≠ some quiet.stack.length ∧
    { quiet with cfg := { defaultConfig with stackDepth := some 0 } }.cfg.stackDepth = some quiet.stack.length := by
  decide
theorem witness_JumpPlusV0AddsV0 :
    ∃ t, exec (.jumpPlusV0 0xFFF#12) (quiet.setReg 0 0xFF#8) = .next t ∧ 4094 < t.pc.toNat := ⟨_, rfl, by decide⟩
theorem witness_MachineCallAlwaysFaults : (0x0EF#12 : Addr) ≠ 0x0E0#12 ∧ (0x0EF#12 : Addr) ≠ 0x0EE#12 := by decide
theorem witness_ReturnUndoesCall :
    ∃ t : State, quiet.cfg.stackDepth ≠ some quiet.stack.length ∧ exec (.call 0x300#12) quiet = .next t ∧
      { quiet with stack := [0x202#16] }.stack = t.stack := ⟨_, by decide, rfl, by decide⟩
theorem witness_SkipsCompareWithConstant : quiet.reg 15 = 0#8 ∧ quiet.reg 15 ≠ 1#8 := by decide
theorem witness_SkipsCompareRegisters :
    quiet.reg 0 = quiet.reg 15 ∧ (quiet.setReg 15 1#8).reg 0 ≠ (quiet.setReg 15 1#8).reg 15 := by decide
theorem witness_SkipsCompareRegisters_low_nibble : ∃ n : Fin 16, n ≠ 0 := ⟨15, by decide⟩
theorem witness_SkipsQueryTheKeypad :
    ((given { idle with keysDown := 0x8000#16 }).setReg 4 0xFF#8).sample.keysDown.getLsbD (0xFF % 16) = true ∧
    quiet.sample.keysDown.getLsbD 0 = false := by decide
theorem witness_SkippedWordPlaysNoPart :
    (.keyNotPressSkip 3 : Instr) ∈ [.skipEqConst 3 0#8, .skipNeqConst 3 0#8, .skipEqReg 3 2, .skipNeqReg 3 2,
      .keyPressSkip 3, .keyNotPressSkip 3] := by decide
theorem witness_AddSetsCarry :
    255 < (((quiet.setReg 0 0xFF#8).setReg 1 1#8).reg 0).toNat + (((quiet.setReg 0 0xFF#8).setReg 1 1#8).reg 1).toNat ∧
    ((quiet.setReg 0 0xFF#8).reg 0).toNat + ((quiet.setReg 0 0xFF#8).reg 1).toNat ≤ 255 := by decide
theorem witness_SubtractsSetNoBorrow :
    (quiet.reg 1).toNat ≤ (quiet.reg 0).toNat ∧
    ((quiet.setReg 1 1#8).reg 0).toNat < ((quiet.setReg 1 1#8).reg 1).toNat := by decide
/-- The clauses of `WritesResultAndFlag`: a destination that is VF or not, and the three policies. -/
theorem witness_WritesResultAndFlag :
    (14 : Reg) ≠ VF ∧ (15 : Reg) = VF ∧ quiet.cfg.vfDestPolicy = .flagLast ∧
    (policy quiet .resultLast).cfg.vfDestPolicy = .resultLast ∧
    (policy quiet .sequential).cfg.vfDestPolicy = .sequential := by decide
theorem witness_VfDestPolicyMattersForVfOnly :
    flagIntoVF (.addReg 14 15) = false ∧ flagIntoVF (.loadImm 15 1#8) = false ∧ flagIntoVF (.shiftLeft 15 0) = true := by
  decide
theorem witness_LocateSpritePointsAtTheGlyph :
    ((quiet.setReg 0 15#8).reg 0).toNat ≤ 15 ∧ 15 < ((quiet.setReg 0 16#8).reg 0).toNat ∧
    quiet.cfg.fontAddrHigh = [] := by decide
theorem witness_LoadBcdStoresTheDigits :
    Memory.wf { quiet with idx := 0xFFD#16 }.mem = true ∧ { quiet with idx := 0xFFD#16 }.idx.toNat + 2 ≤ 4095 ∧
    4095 < { quiet with idx := 0xFFE#16 }.idx.toNat + 2 := by decide
theorem witness_StoreRegistersCopiesToMemory :
    Memory.wf { quiet with idx := 0xFF0#16 }.mem = true ∧ { quiet with idx := 0xFF0#16 }.idx.toNat + (15 : Reg).val ≤ 4095 ∧
    4095 < { quiet with idx := 0xFF1#16 }.idx.toNat + (15 : Reg).val := by decide
theorem witness_ReadRegistersCopiesFromMemory :
    { quiet with idx := 0xFFF#16 }.idx.toNat + (0 : Reg).val ≤ 4095 ∧
    4095 < { quiet with idx := 0xFFF#16 }.idx.toNat + (1 : Reg).val := by decide
/-- The store reaches both bytes of the next word (I = 0x202), or none of them (I = 0x300); PC + 2 = 4094. -/
theorem witness_StoredInstructionIsFetchedNext :
    Memory.wf { quiet with idx := 0x202#16 }.mem = true ∧ { quiet with idx := 0x202#16 }.idx.toNat + (1 : Reg).val ≤ 4095 ∧
    0x202 + (0 : Reg).val = (quiet.pc + 2).toNat ∧ 0x202 + (1 : Reg).val = (quiet.pc + 2).toNat + 1 ∧
    (∀ k : Reg, k ≤ 1 → 0x300 + k.val ≠ (quiet.pc + 2).toNat ∧ 0x300 + k.val ≠ (quiet.pc + 2).toNat + 1) ∧
    ({ quiet with pc := 0xFFC#16 }.pc + 2).toNat ≤ 4094 := by decide
theorem witness_DisplayPrimitives : (1 < 64 ∧ 31 < 32 ∧ (1 ≠ 64 % 64 ∨ 31 ≠ 32 % 32)) ∧ 63 < 64 ∧ 0 < 32 := by decide
theorem witness_DrawXorsTheSprite_range :
    SpriteInMemory { quiet with idx := 0xFFF#16 } 1 ∧ SpriteInMemory { quiet with idx := 0xFFFF#16 } 0 ∧
    ¬ SpriteInMemory { quiet with idx := 0xFFF#16 } 2 := by
  unfold SpriteInMemory; decide
/-- The glyph of 0 at (0, 0): its first row F0 covers (3, 0) and not (4, 0). -/
theorem witness_DrawXorsTheSprite_pixels :
    Covers { quiet with idx := 0x50#16 } 0 0 1 3 0 ∧ ¬ Covers { quiet with idx := 0x50#16 } 0 0 1 4 0 := by
  refine ⟨⟨0, by decide, 3, by decide, by decide⟩, ?_⟩
  unfold Covers; decide
theorem witness_DrawXorsTheSprite_collision :
    HitsLitPixel (lit { quiet with idx := 0x50#16 } [(3, 0)]) 0 0 1 ∧ ¬ HitsLitPixel quiet 0 0 0 :=
  ⟨⟨3, by decide, 0, by decide, ⟨0, by decide, 3, by decide, by decide⟩, by decide⟩,
    fun ⟨_, _, _, _, ⟨_, h, _⟩, _⟩ => absurd h (Nat.not_lt_zero _)⟩
theorem witness_DrawingTwiceErases :
    (0 : Reg) ≠ VF ∧ SpriteInMemory { quiet with idx := 0x50#16 } 5 ∧ (∃ px py, Covers { quiet with idx := 0x50#16 } 0 0 5
      px py) ∧ ¬ ∃ px py, Covers quiet 0 0 0 px py :=
  ⟨by decide, by unfold SpriteInMemory; decide, ⟨3, 0, 0, by decide, 3, by decide, by decide⟩,
    fun ⟨_, _, _, h, _⟩ => absurd h (Nat.not_lt_zero _)⟩
theorem witness_DrawingTwiceErases_clear_display : ∀ px < 64, ∀ py < 32, quiet.disp.get px py = false := by
  intro px _ py _
  simp [quiet, State.reset, resetDisp, Disp.get]
theorem witness_TransferThenDecrement :
    (at_ quiet 0xF307).sample.presentOk = true ∧ AtInstruction (at_ quiet 0xF307) 0xF307#16 (.delayTimerLoadFrom 3) ∧
    AtInstruction (at_ quiet 0xF015) 0xF015#16 (.delayTimerLoadInto 0) ∧
    AtInstruction (at_ quiet 0xF218) 0xF218#16 (.soundLoad 2) :=
  ⟨by decide, at_instruction 0xF307#16 _ (by decide) (by decide), at_instruction 0xF015#16 _ (by decide) (by decide),
    at_instruction 0xF218#16 _ (by decide) (by decide)⟩
theorem witness_KeyLoadWaitsOrStores_step :
    AtInstruction (at_ quiet 0xFF0A) 0xFF0A#16 (.keyLoad 15) ∧ (at_ quiet 0xFF0A).sample.availKey = none ∧
    (at_ quiet 0xFF0A).sample.presentOk = true :=
  ⟨at_instruction 0xFF0A#16 _ (by decide) (by decide), by decide, by decide⟩
theorem witness_KeyLoadWaitsOrStores :
    quiet.sample.availKey = none ∧ (given { idle with availKey := some 15 }).sample.availKey = some 15 := by decide
theorem witness_KeyWaitHoldsTheBlock :
    AtInstruction (at_ quiet 0xF50A) 0xF50A#16 (.keyLoad 5) ∧ 3 ≤ (at_ quiet 0xF50A).inputs.length ∧
    ∀ inp ∈ (at_ quiet 0xF50A).inputs.take 3, inp.availKey = none ∧ GoesOn inp :=
  ⟨at_instruction 0xF50A#16 _ (by decide) (by decide), by decide, by
    intro inp h
    have : inp = idle := by revert h; simp [at_, State.withFetchWord, State.placeWord, quiet]
    subst this; exact ⟨rfl, rfl, rfl⟩⟩
/-- The three ends of a step: a fault of part 4, a failed present, the timers with and without a stop. -/
theorem witness_StepRunsTheDecodedInstruction :
    AtInstruction (at_ quiet 0x00EE) 0x00EE#16 .ret ∧
    (∃ u, exec .ret { at_ quiet 0x00EE with frame := none } = .next u ∧ u.status ≠ .running) ∧
    AtInstruction (at_ quiet 0x00E0) 0x00E0#16 .clear ∧
    (∃ u, exec .clear { at_ quiet 0x00E0 with frame := none } = .next u ∧ u.status = .running) ∧
    (given { idle with presentOk := false }).sample.presentOk = false ∧ (at_ quiet 0x00E0).sample.presentOk = true ∧
    (given { idle with running := false }).sample.running = false :=
  ⟨at_instruction 0x00EE#16 _ (by decide) (by decide), ⟨_, rfl, by decide⟩,
    at_instruction 0x00E0#16 _ (by decide) (by decide), ⟨_, rfl, rfl⟩, by decide, by decide, by decide⟩
theorem witness_FetchIsBigEndian :
    { quiet with pc := 4094#16 }.pc.toNat ≤ 4094 ∧ { quiet with pc := 0x201#16 }.pc.toNat ≤ 4094 := by decide
theorem witness_FetchPastMemoryFaults :
    { quiet with pc := 4095#16 }.status = .running ∧ 4094 < { quiet with pc := 4095#16 }.pc.toNat := by decide
theorem witness_UndecodableWordFaults :
    (at_ quiet 0x8008).status = .running ∧ (at_ quiet 0x8008).fetch = some 0x8008#16 ∧
    (∃ e, decodeWord (at_ quiet 0x8008).cfg.lowNibbleCheck59 0x8008#16 = .error e) ∧ quiet.fetch = some 0#16 ∧
    ∃ nnn, decodeWord quiet.cfg.lowNibbleCheck59 0#16 = .ok (.machineCall nnn) :=
  ⟨by decide, by decide, ⟨.family8 8, by decide⟩, by decide, ⟨0#12, by decide⟩⟩
theorem witness_OnlyARunningBlockSteps :
    quiet.status = .running ∧ { quiet with status := .stopped }.status = .stopped ∧
    (quiet.raise .machineCall 0x200#16 (some 0#16)).status = .faulted ⟨.machineCall, 0x200#16, some 0#16⟩ := by decide
theorem witness_TimersFallWithAFloor :
    AtInstruction (at_ quiet 0xF015) 0xF015#16 (.delayTimerLoadInto 0) ∧ (at_ quiet 0xF015).sample.presentOk = true ∧
    ∃ u, exec (.delayTimerLoadInto 0) { at_ quiet 0xF015 with frame := none } = .next u ∧ u.status = .running :=
  ⟨at_instruction 0xF015#16 _ (by decide) (by decide), by decide, _, rfl, rfl⟩
theorem witness_TimersCountSteps :
    AtInstruction (at_ quiet 0x00E0) 0x00E0#16 .clear ∧ ∃ t, step (at_ quiet 0x00E0) = .next t ∧
      (∀ r, t.status ≠ .faulted r) ∧ (∀ x, Instr.clear ≠ .delayTimerLoadInto x) ∧ ∀ x, Instr.clear ≠ .soundLoad x :=
  ⟨at_instruction 0x00E0#16 _ (by decide) (by decide), _, rfl, fun _ => nofun, fun _ => nofun, fun _ => nofun⟩
/-- A fault of the fetch, of the decoder, of an instruction, and of the present. -/
theorem witness_FaultsArePrecise :
    (∃ t r, step { quiet with pc := 0xFFF#16 } = .next t ∧ t.status = .faulted r ∧ r.word = none) ∧
    (∃ t r, step (at_ quiet 0x8008) = .next t ∧ t.status = .faulted r ∧ r.cause = .decodeFailure) ∧
    (∃ t r, step (at_ quiet 0x00EE) = .next t ∧ t.status = .faulted r ∧ r.word ≠ none ∧ r.cause = .stackUnderflow) ∧
    ∃ t r, step (at_ (given { idle with presentOk := false }) 0x00E0) = .next t ∧ t.status = .faulted r ∧
      r.cause = .presentFailure :=
  ⟨⟨_, _, rfl, rfl, rfl⟩, ⟨_, _, rfl, rfl, rfl⟩, ⟨_, _, rfl, rfl, nofun, rfl⟩, ⟨_, _, rfl, rfl, rfl⟩⟩
theorem witness_EachInstructionHasItsCause :
    quiet.status = .running ∧ ∃ t r, exec .ret quiet = .next t ∧ t.status = .faulted r :=
  ⟨rfl, _, _, rfl, rfl⟩
theorem witness_EveryStepKeepsTheInvariant :
    (at_ quiet 0x2FFE).Inv ∧ ∃ t, step (at_ quiet 0x2FFE) = .next t :=
  ⟨⟨by decide, ⟨by decide, nofun⟩, nofun⟩, _, rfl⟩
theorem witness_EachPartHasItsWriters :
    (∃ t, exec (.loadIndex 0x300#12) quiet = .next t ∧ t.idx ≠ quiet.idx) ∧
    (∃ t, exec (.call 0x300#12) quiet = .next t ∧ t.stack ≠ quiet.stack) ∧
    (∃ t, exec (.delayTimerLoadInto 0) quiet = .next t ∧ t.dt ≠ quiet.dt) ∧
    (∃ t, exec (.soundLoad 0) quiet = .next t ∧ t.st ≠ quiet.st) ∧
    (∃ t, exec (.random 0 0#8) quiet = .next t ∧ t.rngN ≠ quiet.rngN) :=
  ⟨⟨_, rfl, by decide⟩, ⟨_, rfl, by decide⟩, ⟨_, rfl, by decide⟩, ⟨_, rfl, by decide⟩, ⟨_, rfl, by decide⟩⟩
theorem witness_EachPartHasItsWriters_memory :
    ∃ t, exec (.loadBcd 0) ({ quiet with idx := 0x300#16 }.setReg 0 0xFF#8) = .next t ∧ t.mem ≠ quiet.mem :=
  ⟨_, rfl, by decide⟩
theorem witness_EachPartHasItsWriters_display :
    ∃ t, exec .clear (lit quiet [(1, 1)]) = .next t ∧ t.disp ≠ (lit quiet [(1, 1)]).disp :=
  ⟨_, rfl, fun h => absurd (congrArg (fun d => Disp.get d 1 1) h) (by decide)⟩
/-- Registers that differ outside the ones read: all of them for a jump, V2 for an Add of V0 and V1. -/
theorem witness_RegisterAccessTable :
    (∀ r ∈ readsRegs (.jump 0x300#12), (Vector.replicate 16 7#8)[r.val] = quiet.reg r) ∧
    (∀ r ∈ readsRegs (.addReg 0 1), (quiet.setReg 2 7#8).v[r.val] = quiet.reg r) ∧
    (2 : Reg) ∉ writesRegs (.addReg 0 1) ∧ quiet.sample.availKey = none := by decide
theorem witness_OnlyKeyInstructionsReadInputs :
    readsKeys (.draw 0 1 5) = false ∧ readsKeys (.keyLoad 0) = true := by decide
theorem witness_LaunchLoadsFontAndRom :
    (List.replicate 3584 (0#8 : Byte)).length ≤ 3584 ∧ 3584 < (List.replicate 3585 (0#8 : Byte)).length := by
  simp only [List.length_replicate]; decide

end Sys2Proof.Tests
end

section
/-! SUPPORT. What part 4 of the step writes, and the statements of 10_state.md on the machine invariant, on who writes
which part of the state, and on the registers and inputs an instruction reads (R100 to R113). -/

namespace Sys2Proof.Machine

open Sys2Proof.Claims

/-- What holds of the next state that `exec` is known to have holds of every next state it answers. -/
theorem of_exec_next {P : State → Prop} {i : Instr} {s t : State} (hP : ∃ u, exec i s = .next u ∧ P u)
    (h : exec i s = .next t) : P t := by
  obtain ⟨u, hu, hPu⟩ := hP
  obtain rfl : u = t := Host.Outcome.next.inj (hu.symm.trans h)
  exact hPu

/-! ### Who writes what (R102, R105 to R111) -/

/-- The parts of the state an instruction may write, beside PC, the registers and the status. -/
def writesParts : Instr → List Part
  | .loadIndex _ | .addIndex _ | .locateSprite _ => [.idx]
  | .ret | .call _ => [.stack]
  | .delayTimerLoadInto _ => [.dt]
  | .soundLoad _ => [.st]
  | .loadBcd _ | .storeRegisters _ => [.mem]
  | .clear | .draw _ _ _ => [.disp]
  | .random _ _ => [.rngN]
  | _ => []

theorem idx_mem_writesParts {i : Instr} :
    Part.idx ∈ writesParts i ↔ (∃ nnn, i = .loadIndex nnn) ∨ ∃ x, i = .addIndex x ∨ i = .locateSprite x := by
  cases i <;> simp [writesParts]

theorem stack_mem_writesParts {i : Instr} : Part.stack ∈ writesParts i ↔ i = .ret ∨ ∃ nnn, i = .call nnn := by
  cases i <;> simp [writesParts]

theorem dt_mem_writesParts {i : Instr} : Part.dt ∈ writesParts i ↔ ∃ x, i = .delayTimerLoadInto x := by
  cases i <;> simp [writesParts]

theorem st_mem_writesParts {i : Instr} : Part.st ∈ writesParts i ↔ ∃ x, i = .soundLoad x := by
  cases i <;> simp [writesParts]

theorem mem_mem_writesParts {i : Instr} :
    Part.mem ∈ writesParts i ↔ ∃ x, i = .loadBcd x ∨ i = .storeRegisters x := by
  cases i <;> simp [writesParts]

theorem disp_mem_writesParts {i : Instr} :
    Part.disp ∈ writesParts i ↔ i = .clear ∨ ∃ x y n, i = .draw x y n := by
  cases i <;> simp [writesParts]

theorem rngN_mem_writesParts {i : Instr} : Part.rngN ∈ writesParts i ↔ ∃ x nn, i = .random x nn := by
  cases i <;> simp [writesParts]

/-- From `s` to `t` only PC, the status, the registers of `regs` and the parts of `parts` may have changed. Unlike
`SameExcept` it holds of a fault too, and says of memory that it is the same list. A field that is
not given says that the part is unchanged by definition. -/
structure WritesOnly (parts : List Part) (regs : List Reg) (s t : State) : Prop where
  reg : ∀ r, r ∉ regs → t.reg r = s.reg r := by intros; rfl
  idx : Part.idx ∉ parts → t.idx = s.idx := by intros; rfl
  stack : Part.stack ∉ parts → t.stack = s.stack := by intros; rfl
  dt : Part.dt ∉ parts → t.dt = s.dt := by intros; rfl
  st : Part.st ∉ parts → t.st = s.st := by intros; rfl
  mem : Part.mem ∉ parts → t.mem = s.mem := by intros; rfl
  disp : Part.disp ∉ parts → t.disp = s.disp := by intros; rfl
  rngN : Part.rngN ∉ parts → t.rngN = s.rngN := by intros; rfl

namespace WritesOnly

variable {parts : List Part} {regs : List Reg} {s t : State}

theorem setReg (h : WritesOnly parts regs s t) {x : Reg} (b : Byte) (hx : x ∈ regs) :
    WritesOnly parts regs s (t.setReg x b) :=
  { h with reg := fun r hr => (State.setReg_reg_other t b (ne_of_mem_of_not_mem hx hr).symm).trans (h.reg r hr) }

theorem trap (cause : FaultCause) (i : Instr) : WritesOnly parts regs s (s.trap cause i) := {}

theorem skipIf (c : Bool) : WritesOnly parts regs s (s.skipIf c) := by
  rw [State.skipIf_eq_setPc]
  exact {}

theorem writeRF {x : Reg} (res : Byte) (f : Bool) (seq : Byte) (hx : x ∈ regs) (hf : VF ∈ regs) :
    WritesOnly parts regs s (s.advance.writeRF x res f seq) := by
  have hadv : WritesOnly parts regs s s.advance := {}
  unfold State.writeRF
  split
  · exact hadv.setReg _ hf
  · exact (hadv.setReg _ hx).setReg _ hf

/-- A block load writes the registers the block reaches. -/
theorem setRegs {bs : List Byte} (hbs : ∀ r : Reg, r ∉ regs → bs.length ≤ r.val) :
    WritesOnly parts regs s (s.advance.setRegs bs) where
  reg r hr := by
    rw [State.setRegs_reg, List.getD_eq_default _ _ (hbs r hr)]
    rfl

end WritesOnly

/-- Every instruction writes its registers of R102 and its parts only, in a fault as well. -/
theorem exec_next_writesOnly (i : Instr) (s : State) :
    ∃ t, exec i s = .next t ∧ WritesOnly (writesParts i) (writesRegs i) s t := by
  have hadv {parts regs} : WritesOnly parts regs s s.advance := {}
  cases i with
  | ret =>
    obtain ⟨-, h⟩ | ⟨w, ws, -, h⟩ := execRet_cases s
    · exact ⟨_, h, .trap ..⟩
    · exact ⟨_, h, { stack := (absurd List.mem_cons_self ·) }⟩
  | call nnn =>
    obtain ⟨-, h⟩ | ⟨-, h⟩ := execCall_cases nnn s
    · exact ⟨_, h, .trap ..⟩
    · exact ⟨_, h, { stack := (absurd List.mem_cons_self ·) }⟩
  | loadBcd x =>
    obtain ⟨-, h⟩ | ⟨-, h⟩ := execLoadBcd_cases x s
    · exact ⟨_, h, .trap ..⟩
    · exact ⟨_, h, { mem := (absurd List.mem_cons_self ·) }⟩
  | storeRegisters x =>
    obtain ⟨-, h⟩ | ⟨-, h⟩ := execStoreRegisters_cases x s
    · exact ⟨_, h, .trap ..⟩
    · exact ⟨_, h, { mem := (absurd List.mem_cons_self ·) }⟩
  | readRegisters x =>
    obtain ⟨-, h⟩ | ⟨bs, -, hbs, h⟩ := execReadRegisters_cases x s
    · exact ⟨_, h, .trap ..⟩
    · refine ⟨_, h, .setRegs fun r hr => ?_⟩
      simpa [writesRegs, State.slice_length hbs] using hr
  | draw x y n =>
    obtain ⟨-, -, h⟩ | ⟨rows, -, -, h⟩ := execDraw_cases x y n s
    · exact ⟨_, h, .trap ..⟩
    · exact ⟨_, h, .setReg { disp := (absurd List.mem_cons_self ·) } _ List.mem_cons_self⟩
  | keyLoad x =>
    refine ⟨_, rfl, ?_⟩
    obtain ⟨-, h⟩ | ⟨k, -, h⟩ := s.advance.loadKey_cases x s.sample.availKey
    · rw [h]; exact {}
    · rw [h]; exact hadv.setReg _ List.mem_cons_self
  | addReg x y | subReg x y | subnReg x y | shiftRight x y | shiftLeft x y =>
    exact ⟨_, rfl, .writeRF _ _ _ List.mem_cons_self (List.mem_cons_of_mem _ List.mem_cons_self)⟩
  | loadImm x _ | addConst x _ | loadReg x _ | orReg x _ | andReg x _ | xorReg x _ | delayTimerLoadFrom x =>
    exact ⟨_, rfl, hadv.setReg _ List.mem_cons_self⟩
  | random x nn => exact ⟨_, rfl, .setReg { rngN := (absurd List.mem_cons_self ·) } _ List.mem_cons_self⟩
  | skipEqConst _ _ | skipNeqConst _ _ | skipEqReg _ _ | skipNeqReg _ _ | keyPressSkip _ | keyNotPressSkip _ =>
    exact ⟨_, rfl, .skipIf _⟩
  | machineCall _ | jump _ | jumpPlusV0 _ => exact ⟨_, rfl, {}⟩
  | loadIndex _ | addIndex _ | locateSprite _ => exact ⟨_, rfl, { idx := (absurd List.mem_cons_self ·) }⟩
  | delayTimerLoadInto x => exact ⟨_, rfl, { dt := (absurd List.mem_cons_self ·) }⟩
  | soundLoad x => exact ⟨_, rfl, { st := (absurd List.mem_cons_self ·) }⟩
  | clear => exact ⟨_, rfl, { disp := (absurd List.mem_cons_self ·) }⟩

theorem exec_writesOnly {i : Instr} {s t : State} (h : exec i s = .next t) :
    WritesOnly (writesParts i) (writesRegs i) s t :=
  of_exec_next (exec_next_writesOnly i s) h

/-- Settles O49: a part that has changed is one the instruction writes, and the lists name its writers. -/
theorem eachPartHasItsWriters : Obligations.EachPartHasItsWriters := by
  intro i s t h
  have hw := exec_writesOnly h
  obtain ⟨hframe, hinputs, hinputNo, hcfg⟩ := of_exec_next (exec_next i s) h
  exact ⟨fun hne => idx_mem_writesParts.mp (not_imp_comm.mp hw.idx hne),
    fun hne => stack_mem_writesParts.mp (not_imp_comm.mp hw.stack hne),
    fun hne => dt_mem_writesParts.mp (not_imp_comm.mp hw.dt hne),
    fun hne => st_mem_writesParts.mp (not_imp_comm.mp hw.st hne),
    fun hne => mem_mem_writesParts.mp (not_imp_comm.mp hw.mem hne),
    fun hne => disp_mem_writesParts.mp (not_imp_comm.mp hw.disp hne),
    fun hne => rngN_mem_writesParts.mp (not_imp_comm.mp hw.rngN hne),
    hframe, hinputs, hinputNo, hcfg⟩

/-! ### The invariant (R103, R106, R200, R420) -/

/-- Where PC can stand after part 4 of a step from `s`. -/
inductive PcAfter (s : State) : Word → Prop
  /-- A machine call, and a key load that waits. -/
  | stays : PcAfter s s.pc
  | advanced : PcAfter s (s.pc + 2)
  | skipped : PcAfter s (s.pc + 2 + 2)
  | returned {w : Word} (hw : w ∈ s.stack) : PcAfter s w
  | jumped (nnn : Addr) : PcAfter s (zextAddr nnn)
  | jumpedPlus (nnn : Addr) (b : Byte) : PcAfter s (zextAddr nnn + zextByte b)

theorem PcAfter.skipIf (s : State) (c : Bool) : PcAfter s (s.skipIf c).pc := by
  cases c
  · exact .advanced
  · exact .skipped

theorem PcAfter.writeRF (s : State) (x : Reg) (res : Byte) (f : Bool) (seq : Byte) :
    PcAfter s (s.advance.writeRF x res f seq).pc := by
  obtain ⟨v, hv⟩ := s.advance.writeRF_eq_setV x res f seq
  rw [hv]
  exact .advanced

/-- Every instruction moves PC in one of these ways. -/
theorem exec_next_pcAfter (i : Instr) (s : State) : ∃ t, exec i s = .next t ∧ PcAfter s t.pc := by
  cases i with
  | ret =>
    obtain ⟨-, h⟩ | ⟨w, ws, hs, h⟩ := execRet_cases s
    · exact ⟨_, h, .advanced⟩
    · exact ⟨_, h, .returned (hs ▸ List.mem_cons_self)⟩
  | machineCall _ => exact ⟨_, rfl, .stays⟩
  | jump nnn => exact ⟨_, rfl, .jumped nnn⟩
  | jumpPlusV0 nnn => exact ⟨_, rfl, .jumpedPlus nnn _⟩
  | call nnn =>
    obtain ⟨-, h⟩ | ⟨-, h⟩ := execCall_cases nnn s
    · exact ⟨_, h, .advanced⟩
    · exact ⟨_, h, .jumped nnn⟩
  | keyLoad x =>
    refine ⟨_, rfl, ?_⟩
    obtain ⟨-, h⟩ | ⟨k, -, h⟩ := s.advance.loadKey_cases x s.sample.availKey
    · rw [h, State.advance_rewind]; exact .stays
    · rw [h]; exact .advanced
  | loadBcd x => obtain ⟨-, h⟩ | ⟨-, h⟩ := execLoadBcd_cases x s <;> exact ⟨_, h, .advanced⟩
  | storeRegisters x => obtain ⟨-, h⟩ | ⟨-, h⟩ := execStoreRegisters_cases x s <;> exact ⟨_, h, .advanced⟩
  | readRegisters x => obtain ⟨-, h⟩ | ⟨bs, -, -, h⟩ := execReadRegisters_cases x s <;> exact ⟨_, h, .advanced⟩
  | draw x y n => obtain ⟨-, -, h⟩ | ⟨rows, -, -, h⟩ := execDraw_cases x y n s <;> exact ⟨_, h, .advanced⟩
  | skipEqConst _ _ | skipNeqConst _ _ | skipEqReg _ _ | skipNeqReg _ _ | keyPressSkip _ | keyNotPressSkip _ =>
    exact ⟨_, rfl, .skipIf ..⟩
  | addReg x y | subReg x y | subnReg x y | shiftRight x y | shiftLeft x y => exact ⟨_, rfl, .writeRF ..⟩
  | _ => exact ⟨_, rfl, .advanced⟩

theorem zextAddr_toNat_le (nnn : Addr) : (zextAddr nnn).toNat ≤ 0xFFF := by
  rw [zextAddr, BitVec.toNat_setWidth_of_le (by decide)]
  omega

theorem zextByte_toNat_le (b : Byte) : (zextByte b).toNat ≤ 0xFF := by
  rw [zextByte, BitVec.toNat_setWidth_of_le (by decide)]
  omega

/-- The bound of R103, after an instruction that has been fetched: JumpPlusV0 reaches highest. -/
theorem PcAfter.toNat_le {s : State} {w : Word} (h : PcAfter s w) (hs : s.PcBounded) (hf : s.pc.toNat ≤ 4094) :
    w.toNat ≤ 0x10FE := by
  cases h with
  | stays => exact hs.1
  | advanced => bv_omega
  | skipped => bv_omega
  | returned hw => exact (hs.2 w hw).2.trans (by decide)
  | jumped nnn => exact (zextAddr_toNat_le nnn).trans (by decide)
  | jumpedPlus nnn b =>
    have hn := zextAddr_toNat_le nnn
    have hb := zextByte_toNat_le b
    bv_omega

/-- What the call stack can be after part 4 of a step from `s`. -/
inductive StackAfter (s : State) : List Word → Prop
  | same : StackAfter s s.stack
  | popped : StackAfter s s.stack.tail
  | pushed (hroom : s.stackFull = false) : StackAfter s ((s.pc + 2) :: s.stack)

theorem exec_stackAfter {i : Instr} {s t : State} (h : exec i s = .next t) : StackAfter s t.stack := by
  by_cases hi : Part.stack ∈ writesParts i
  · refine of_exec_next (P := fun u => StackAfter s u.stack) ?_ h
    obtain rfl | ⟨nnn, rfl⟩ := stack_mem_writesParts.mp hi
    · obtain ⟨-, h⟩ | ⟨w, ws, -, h⟩ := execRet_cases s
      · exact ⟨_, h, .same⟩
      · exact ⟨_, h, .popped⟩
    · obtain ⟨-, h⟩ | ⟨hroom, h⟩ := execCall_cases nnn s
      · exact ⟨_, h, .same⟩
      · exact ⟨_, h, .pushed hroom⟩
  · rw [(exec_writesOnly h).stack hi]
    exact .same

/-- What is pushed is the address after a fetched instruction, so it lies in the range of R420. -/
theorem StackAfter.bounded {s : State} {ws : List Word} (h : StackAfter s ws) (hs : s.PcBounded)
    (hf : s.pc.toNat ≤ 4094) : ∀ w ∈ ws, 0x002 ≤ w.toNat ∧ w.toNat ≤ 0x1000 := by
  cases h with
  | same => exact hs.2
  | popped => exact fun w hw => hs.2 w (List.mem_of_mem_tail hw)
  | pushed _ =>
    have hpushed : 0x002 ≤ (s.pc + 2).toNat ∧ (s.pc + 2).toNat ≤ 0x1000 := by bv_omega
    exact List.forall_mem_cons.mpr ⟨hpushed, hs.2⟩

/-- A call goes ahead on a stack that is not full only, so the depth of the build is kept. -/
theorem StackAfter.length_le {s : State} {ws : List Word} (h : StackAfter s ws) (hs : s.StackBounded) {d : Nat}
    (hd : s.cfg.stackDepth = some d) : ws.length ≤ d := by
  have hle := hs d hd
  cases h with
  | same => exact hle
  | popped => rw [List.length_tail]; omega
  | pushed hroom =>
    have hne : d ≠ s.stack.length := by simpa [State.stackFull, hd] using hroom
    rw [List.length_cons]
    omega

/-- The two instructions that write memory store through the range check, which keeps the canonical form. -/
theorem exec_keeps_memory_wf {i : Instr} {s t : State} (h : exec i s = .next t) (hs : Memory.wf s.mem = true) :
    Memory.wf t.mem = true := by
  by_cases hi : Part.mem ∈ writesParts i
  · refine of_exec_next (P := fun u => Memory.wf u.mem = true) ?_ h
    obtain ⟨x, rfl | rfl⟩ := mem_mem_writesParts.mp hi
    · obtain ⟨-, h⟩ | ⟨hle, h⟩ := execLoadBcd_cases x s
      · exact ⟨_, h, hs⟩
      · exact ⟨_, h, Memory.setBytes_wf _ hs hle⟩
    · obtain ⟨-, h⟩ | ⟨hle, h⟩ := execStoreRegisters_cases x s
      · exact ⟨_, h, hs⟩
      · exact ⟨_, h, Memory.setBytes_wf _ hs (by rwa [State.regsUpTo_length])⟩
  · rwa [(exec_writesOnly h).mem hi]

/-- Parts 3 and 4 of a step keep the invariant, from a state whose instruction could be fetched. -/
theorem exec_keeps_inv {i : Instr} {s t : State} (h : exec i s = .next t) (hs : s.Inv) (hf : s.pc.toNat ≤ 4094) :
    t.Inv where
  memory := exec_keeps_memory_wf h hs.memory
  pc := ⟨(of_exec_next (exec_next_pcAfter i s) h).toNat_le hs.pc hf, (exec_stackAfter h).bounded hs.pc hf⟩
  stack d hd := by
    have hcfg := (of_exec_next (exec_next i s) h).cfg
    exact (exec_stackAfter h).length_le hs.stack (hcfg ▸ hd)

/-- The parts of the state that the invariant speaks of are the same. -/
structure SameLegality (s t : State) : Prop where
  mem : t.mem = s.mem := by rfl
  pc : t.pc = s.pc := by rfl
  stack : t.stack = s.stack := by rfl
  cfg : t.cfg = s.cfg := by rfl

theorem State.Inv.of_sameLegality {s t : State} (hs : s.Inv) (h : SameLegality s t) : t.Inv := by
  obtain ⟨hmem, hpc, hstack, hcfg⟩ := h
  refine ⟨hmem ▸ hs.memory, ?_, ?_⟩
  · simpa only [State.PcBounded, hpc, hstack] using hs.pc
  · simpa only [State.StackBounded, hstack, hcfg] using hs.stack

/-- Parts 5 and 6, and the use of the sample, touch outputs, timers and status only. -/
theorem SameLegality.afterExec (u : State) (a w : Word) : SameLegality u (u.afterExec a w).dropSample := by
  unfold State.afterExec
  split
  · obtain ⟨-, h⟩ | ⟨-, -, h⟩ | ⟨-, -, h⟩ := u.finish_cases a w <;> rw [h] <;> exact {}
  · exact {}
  · exact {}

/-- Settles O47: fetch and decode faults touch nothing the invariant speaks of, nor do parts 5 and 6, and the
instruction of part 4 has been fetched, so PC is at most 4094 there. -/
theorem everyStepKeepsTheInvariant : Obligations.EveryStepKeepsTheInvariant := by
  intro s t hs h
  obtain ⟨-, ⟨-, rfl⟩ | ⟨w, hw, ⟨e, -, rfl⟩ | ⟨i, u, -, hu, rfl⟩⟩⟩ := step_cases h
  · exact hs.of_sameLegality {}
  · exact hs.of_sameLegality {}
  · have hinv : u.Inv := exec_keeps_inv hu (hs.of_sameLegality {}) (State.fetch_eq_some.mp hw).1
    exact hinv.of_sameLegality (.afterExec u s.pc w)

/-! ### Return, Call and KeyLoad: one equation for each side of the branch (R420, R422, R563) -/

theorem exec_ret_nil {s : State} (hs : s.stack = []) : exec .ret s = .next (s.trap .stackUnderflow .ret) := by
  rw [exec, execRet, hs]

theorem exec_ret_cons {s : State} {w : Word} {ws : List Word} (hs : s.stack = w :: ws) :
    exec .ret s = .next (s.advance.dropTop.setPc w) := by
  rw [exec, execRet, hs]

theorem exec_call_full {s : State} (nnn : Addr) (hs : s.stackFull = true) :
    exec (.call nnn) s = .next (s.trap .stackOverflow (.call nnn)) :=
  if_pos hs

theorem exec_call_room {s : State} (nnn : Addr) (hs : s.stackFull = false) :
    exec (.call nnn) s = .next ((s.advance.push s.advance.pc).setPc (zextAddr nnn)) :=
  if_neg (by simp [hs])

/-- A key load without a key leaves the state as it was when the step fetched it (R563). -/
theorem exec_keyLoad_none {s : State} (x : Reg) (hk : s.sample.availKey = none) : exec (.keyLoad x) s = .next s := by
  rw [exec, execKeyLoad, hk, State.loadKey, State.advance_rewind]

theorem exec_keyLoad_some {s : State} (x : Reg) {k : Key} (hk : s.sample.availKey = some k) :
    exec (.keyLoad x) s = .next (s.advance.setReg x (keyByte k)) := by
  rw [exec, execKeyLoad, hk, State.loadKey]

/-! ### Inputs (R113) -/

/-- The state with other inputs for this step and the coming ones. -/
def State.withInputs (inputs : List Inputs) (n : Nat) (s : State) : State := { s with inputs := inputs, inputNo := n }

section WithInputs

variable (inputs : List Inputs) (n : Nat) (s : State)

@[simp] theorem State.withInputs_reg (x : Reg) : (s.withInputs inputs n).reg x = s.reg x := rfl
@[simp] theorem State.withInputs_idx : (s.withInputs inputs n).idx = s.idx := rfl
@[simp] theorem State.withInputs_regsUpTo (x : Reg) : (s.withInputs inputs n).regsUpTo x = s.regsUpTo x := rfl
@[simp] theorem State.withInputs_slice (base k : Nat) : (s.withInputs inputs n).slice base k = s.slice base k := rfl

@[simp] theorem State.withInputs_skipIf (c : Bool) :
    (s.withInputs inputs n).skipIf c = (s.skipIf c).withInputs inputs n := by
  cases c <;> rfl

@[simp] theorem State.withInputs_advance_writeRF (x : Reg) (res : Byte) (f : Bool) (seq : Byte) :
    (s.withInputs inputs n).advance.writeRF x res f seq = (s.advance.writeRF x res f seq).withInputs inputs n := by
  unfold State.writeRF
  split <;> rfl

@[simp] theorem State.withInputs_advance_store (base : Nat) (bs : List Byte) :
    (s.withInputs inputs n).advance.store base bs = (s.advance.store base bs).map (State.withInputs inputs n) := by
  unfold State.store
  split <;> rfl

end WithInputs

/-- An instruction that samples no key commutes with a change of the inputs. -/
theorem exec_withInputs {i : Instr} (hi : readsKeys i = false) (inputs : List Inputs) (n : Nat) (s : State) :
    exec i (s.withInputs inputs n) = mapNext (State.withInputs inputs n) (exec i s) := by
  cases i with
  | keyPressSkip x | keyNotPressSkip x | keyLoad x => exact absurd hi (by simp [readsKeys])
  | ret =>
    cases hs : s.stack with
    | nil => rw [exec_ret_nil hs, exec_ret_nil (s := s.withInputs inputs n) hs]; rfl
    | cons w ws => rw [exec_ret_cons hs, exec_ret_cons (s := s.withInputs inputs n) hs]; rfl
  | call nnn =>
    cases hs : s.stackFull with
    | false => rw [exec_call_room nnn hs, exec_call_room (s := s.withInputs inputs n) nnn hs]; rfl
    | true => rw [exec_call_full nnn hs, exec_call_full (s := s.withInputs inputs n) nnn hs]; rfl
  | loadBcd x =>
    simp only [exec, execLoadBcd, State.withInputs_advance_store, State.withInputs_idx, State.withInputs_reg]
    cases s.advance.store s.idx.toNat (bcdDigits (s.reg x)) <;> rfl
  | storeRegisters x =>
    simp only [exec, execStoreRegisters, State.withInputs_advance_store, State.withInputs_idx,
      State.withInputs_regsUpTo]
    cases s.advance.store s.idx.toNat (s.regsUpTo x) <;> rfl
  | readRegisters x =>
    simp only [exec, execReadRegisters, State.withInputs_slice, State.withInputs_idx]
    cases s.slice s.idx.toNat (x.val + 1) <;> rfl
  | draw x y k =>
    simp only [exec, execDraw, State.withInputs_slice, State.withInputs_idx]
    cases s.slice s.idx.toNat k.val <;> rfl
  | skipEqConst x nn | skipNeqConst x nn | skipEqReg x y | skipNeqReg x y =>
    exact congrArg Host.Outcome.next (s.withInputs_skipIf inputs n _)
  | addReg x y | subReg x y | subnReg x y | shiftRight x y | shiftLeft x y =>
    exact congrArg Host.Outcome.next (s.withInputs_advance_writeRF inputs n x _ _ _)
  | _ => rfl

/-- Settles O51: the step of the changed state is the changed step. -/
theorem onlyKeyInstructionsReadInputs : Obligations.OnlyKeyInstructionsReadInputs := by
  intro i s inputs n hi
  obtain ⟨t, ht, -⟩ := exec_next i s
  refine ⟨t, ht, ?_⟩
  have hcomm := exec_withInputs hi inputs n s
  rw [ht] at hcomm
  exact hcomm

/-! ### Registers (R102) -/

/-- The state with other registers. -/
def State.withV (v : Vector Byte 16) (s : State) : State := { s with v := v }

/-- `t` comes from `s`, and `t'` from `s` with the registers `v`: the two differ in registers only, and each register is
either written alike in both or left alone in both. -/
structure DiffersInRegs (s : State) (v : Vector Byte 16) (t t' : State) : Prop where
  rest : t' = { t with v := t'.v }
  reg : ∀ r, t'.reg r = t.reg r ∨ (t.reg r = s.reg r ∧ t'.reg r = v[r.val])

namespace DiffersInRegs

variable {s t t' : State} {v : Vector Byte 16}

/-- What leaves the registers alone. -/
theorem keeps (ht : t.v = s.v) : DiffersInRegs s v t (t.withV v) where
  rest := rfl
  reg r := .inr ⟨by rw [State.reg, State.reg, ht], rfl⟩

/-- A write of the same byte. -/
theorem setReg (h : DiffersInRegs s v t t') (x : Reg) (b : Byte) :
    DiffersInRegs s v (t.setReg x b) (t'.setReg x b) where
  rest := by rw [h.rest]; rfl
  reg r := by
    by_cases hr : r = x
    · subst hr
      exact .inl (by rw [State.setReg_reg_same, State.setReg_reg_same])
    · rw [State.setReg_reg_other t b hr, State.setReg_reg_other t' b hr]
      exact h.reg r

/-- A load of the same block of bytes. -/
theorem setRegs (h : DiffersInRegs s v t t') (bs : List Byte) : DiffersInRegs s v (t.setRegs bs) (t'.setRegs bs) where
  rest := by rw [h.rest]; rfl
  reg r := by
    rw [State.setRegs_reg, State.setRegs_reg]
    rcases Nat.lt_or_ge r.val bs.length with hr | hr
    · rw [List.getD_eq_getElem _ _ hr, List.getD_eq_getElem _ _ hr]
      exact .inl rfl
    · rw [List.getD_eq_default _ _ hr, List.getD_eq_default _ _ hr]
      exact h.reg r

/-- A write of the same result with the same flag: the build, and so the policy of R471, is the same. -/
theorem writeRF (h : DiffersInRegs s v t t') (x : Reg) (res : Byte) (f : Bool) (seq : Byte) :
    DiffersInRegs s v (t.writeRF x res f seq) (t'.writeRF x res f seq) := by
  have hcfg : t'.cfg = t.cfg := by rw [h.rest]
  unfold State.writeRF
  rw [hcfg]
  split
  · exact h.setReg ..
  · exact (h.setReg ..).setReg ..

end DiffersInRegs

section WithV

variable (v : Vector Byte 16) (s : State)

@[simp] theorem State.withV_idx : (s.withV v).idx = s.idx := rfl
@[simp] theorem State.withV_slice (base k : Nat) : (s.withV v).slice base k = s.slice base k := rfl

@[simp] theorem State.withV_advance_store (base : Nat) (bs : List Byte) :
    (s.withV v).advance.store base bs = (s.advance.store base bs).map (State.withV v) := by
  unfold State.store
  split <;> rfl

end WithV

/-- A range-checked write leaves the registers alone. -/
theorem State.store_v {s t : State} {base : Nat} {bs : List Byte} (h : s.store base bs = some t) : t.v = s.v := by
  obtain ⟨-, rfl⟩ := State.store_eq_some.mp h
  rfl

theorem State.regsUpTo_congr {s t : State} {x : Reg} (h : ∀ r ≤ x, t.reg r = s.reg r) :
    t.regsUpTo x = s.regsUpTo x := by
  refine List.ext_getElem (by rw [State.regsUpTo_length, State.regsUpTo_length]) fun k hk _ => ?_
  rw [State.regsUpTo_length] at hk
  simpa [State.regsUpTo, State.reg] using h ⟨k, by omega⟩ (Fin.le_def.mpr (by simp; omega))

/-- From two states that agree on the registers an instruction reads and differ in registers only, it goes to two such
states. -/
theorem exec_differsInRegs (i : Instr) (s : State) (v : Vector Byte 16)
    (h : ∀ r ∈ readsRegs i, (s.withV v).reg r = s.reg r) :
    ∃ t t', exec i s = .next t ∧ exec i (s.withV v) = .next t' ∧ DiffersInRegs s v t t' := by
  have hadv : DiffersInRegs s v s.advance (s.withV v).advance := .keeps rfl
  cases i with
  | ret =>
    cases hs : s.stack with
    | nil => exact ⟨_, _, exec_ret_nil hs, exec_ret_nil (s := s.withV v) hs, .keeps rfl⟩
    | cons w ws => exact ⟨_, _, exec_ret_cons hs, exec_ret_cons (s := s.withV v) hs, .keeps rfl⟩
  | call nnn =>
    cases hs : s.stackFull with
    | false => exact ⟨_, _, exec_call_room nnn hs, exec_call_room (s := s.withV v) nnn hs, .keeps rfl⟩
    | true => exact ⟨_, _, exec_call_full nnn hs, exec_call_full (s := s.withV v) nnn hs, .keeps rfl⟩
  | loadBcd x =>
    simp only [exec, execLoadBcd, State.withV_advance_store, State.withV_idx, h x List.mem_cons_self]
    cases hst : s.advance.store s.idx.toNat (bcdDigits (s.reg x)) with
    | none => exact ⟨_, _, rfl, rfl, .keeps rfl⟩
    | some t => exact ⟨_, _, rfl, rfl, .keeps ((State.store_v hst).trans s.advance_v)⟩
  | storeRegisters x =>
    have hregs : (s.withV v).regsUpTo x = s.regsUpTo x :=
      State.regsUpTo_congr fun r hr => h r (by simpa [readsRegs] using hr)
    simp only [exec, execStoreRegisters, State.withV_advance_store, State.withV_idx, hregs]
    cases hst : s.advance.store s.idx.toNat (s.regsUpTo x) with
    | none => exact ⟨_, _, rfl, rfl, .keeps rfl⟩
    | some t => exact ⟨_, _, rfl, rfl, .keeps ((State.store_v hst).trans s.advance_v)⟩
  | readRegisters x =>
    simp only [exec, execReadRegisters, State.withV_slice, State.withV_idx]
    cases s.slice s.idx.toNat (x.val + 1) with
    | none => exact ⟨_, _, rfl, rfl, .keeps rfl⟩
    | some bs => exact ⟨_, _, rfl, rfl, hadv.setRegs bs⟩
  | draw x y n =>
    simp only [exec, execDraw, State.withV_slice, State.withV_idx, h x List.mem_cons_self,
      h y (List.mem_cons_of_mem _ List.mem_cons_self)]
    cases s.slice s.idx.toNat n.val with
    | none => exact ⟨_, _, rfl, rfl, .keeps rfl⟩
    | some rows => exact ⟨_, _, rfl, rfl, .setReg (.keeps (s := s) (t := s.advance.setDisp _) rfl) VF _⟩
  | keyLoad x =>
    cases hk : s.sample.availKey with
    | none => exact ⟨_, _, exec_keyLoad_none x hk, exec_keyLoad_none (s := s.withV v) x hk, .keeps rfl⟩
    | some k =>
      exact ⟨_, _, exec_keyLoad_some x hk, exec_keyLoad_some (s := s.withV v) x hk, hadv.setReg x _⟩
  | random x nn => exact ⟨_, _, rfl, rfl, .setReg (.keeps (s := s) (t := s.advance.nextRand) rfl) x _⟩
  | loadImm x nn | delayTimerLoadFrom x => exact ⟨_, _, rfl, rfl, hadv.setReg x _⟩
  | addConst x nn =>
    refine ⟨_, _, rfl, rfl, ?_⟩
    rw [h x List.mem_cons_self]
    exact hadv.setReg x _
  | loadReg x y =>
    refine ⟨_, _, rfl, rfl, ?_⟩
    rw [h y List.mem_cons_self]
    exact hadv.setReg x _
  | orReg x y | andReg x y | xorReg x y =>
    refine ⟨_, _, rfl, rfl, ?_⟩
    rw [h x List.mem_cons_self, h y (List.mem_cons_of_mem _ List.mem_cons_self)]
    exact hadv.setReg x _
  | addReg x y | subReg x y | subnReg x y =>
    refine ⟨_, _, rfl, rfl, ?_⟩
    rw [h x List.mem_cons_self, h y (List.mem_cons_of_mem _ List.mem_cons_self)]
    exact hadv.writeRF x _ _ _
  | shiftRight x _ | shiftLeft x _ =>
    refine ⟨_, _, rfl, rfl, ?_⟩
    rw [h x List.mem_cons_self]
    exact hadv.writeRF x _ _ _
  | skipEqConst x nn | skipNeqConst x nn | keyPressSkip x | keyNotPressSkip x =>
    refine ⟨_, _, rfl, rfl, ?_⟩
    rw [h x List.mem_cons_self, State.skipIf_eq_setPc, State.skipIf_eq_setPc]
    exact .keeps rfl
  | skipEqReg x y | skipNeqReg x y =>
    refine ⟨_, _, rfl, rfl, ?_⟩
    rw [h x List.mem_cons_self, h y (List.mem_cons_of_mem _ List.mem_cons_self), State.skipIf_eq_setPc,
      State.skipIf_eq_setPc]
    exact .keeps rfl
  | jumpPlusV0 nnn =>
    refine ⟨_, _, rfl, rfl, ?_⟩
    rw [h 0 List.mem_cons_self]
    exact .keeps rfl
  | delayTimerLoadInto x | soundLoad x | addIndex x | locateSprite x =>
    refine ⟨_, _, rfl, rfl, ?_⟩
    rw [h x List.mem_cons_self]
    exact .keeps rfl
  | clear | machineCall _ | jump _ | loadIndex _ => exact ⟨_, _, rfl, rfl, .keeps rfl⟩

/-- Settles O50: the column "writes" is the frame of every instruction, the column "reads" is all it depends on. -/
theorem registerAccessTable : Obligations.RegisterAccessTable := by
  intro i s
  constructor
  · obtain ⟨t, ht, hw⟩ := exec_next_writesOnly i s
    refine ⟨t, ht, hw.reg, ?_⟩
    rintro x rfl hk
    rw [of_exec_next (P := (s = ·)) ⟨s, exec_keyLoad_none x hk, rfl⟩ ht]
  · intro v h
    obtain ⟨t, t', ht, ht', hd⟩ := exec_differsInRegs i s v h
    exact ⟨t, t', ht, ht', hd.rest, hd.reg⟩

end Sys2Proof.Machine
end

section
/-! SUPPORT. What the fetch reads from memory (R202, R203, R401), also from bytes that StoreRegisters has just stored
(R212, R504, R714). -/

namespace Sys2Proof.Machine

open Sys2Proof.Claims

/-! ### The fetched word -/

theorem State.fetch_of_pc_le {s : State} (h : s.pc.toNat ≤ 4094) :
    s.fetch = some (bigEndian (Memory.byte s.mem s.pc.toNat) (Memory.byte s.mem (s.pc.toNat + 1))) :=
  State.fetch_eq_some.mpr ⟨h, rfl⟩

theorem bigEndian_toNat_div (hi lo : Byte) : (bigEndian hi lo).toNat / 256 = hi.toNat := by
  rw [bigEndian_toNat]; omega

theorem bigEndian_toNat_mod (hi lo : Byte) : (bigEndian hi lo).toNat % 256 = lo.toNat := by
  rw [bigEndian_toNat]; omega

/-- Settles O39: the word of the fetch is the two bytes, the first in the high half. -/
theorem fetchIsBigEndian : Obligations.FetchIsBigEndian := fun _ hpc =>
  ⟨_, State.fetch_of_pc_le hpc, by rw [bigEndian_toNat, Nat.mul_comm]⟩

/-! ### Memory after StoreRegisters (R504) -/

theorem exec_storeRegisters_of_le {s : State} {x : Reg} (h : s.idx.toNat + x.val ≤ 4095) :
    exec (.storeRegisters x) s =
      .next { s.advance with mem := Memory.setBytes s.mem s.idx.toNat (s.regsUpTo x) } := by
  obtain ⟨hgt, -⟩ | ⟨-, hnext⟩ := execStoreRegisters_cases x s
  · unfold memSize at hgt; omega
  · exact hnext

/-- Memory after a store of V0 to Vx that stays in range, at every address. -/
theorem byte_setBytes_regsUpTo {s : State} {x : Reg} (hs : Memory.wf s.mem = true) (h : s.idx.toNat + x.val ≤ 4095)
    (a : Nat) : Memory.byte (Memory.setBytes s.mem s.idx.toNat (s.regsUpTo x)) a =
      if s.idx.toNat ≤ a then (s.regsUpTo x).getD (a - s.idx.toNat) (Memory.byte s.mem a) else Memory.byte s.mem a :=
  Memory.byte_setBytes _ a hs (by rw [State.regsUpTo_length]; unfold memSize; omega)

theorem byte_setBytes_regsUpTo_stored {s : State} {x k : Reg} (hs : Memory.wf s.mem = true)
    (h : s.idx.toNat + x.val ≤ 4095) (hk : k ≤ x) {a : Nat} (ha : s.idx.toNat + k.val = a) :
    Memory.byte (Memory.setBytes s.mem s.idx.toNat (s.regsUpTo x)) a = s.reg k := by
  subst ha
  rw [byte_setBytes_regsUpTo hs h, if_pos (Nat.le_add_right ..), Nat.add_sub_cancel_left, State.regsUpTo_getD s x k hk]

theorem byte_setBytes_regsUpTo_other {s : State} {x : Reg} (hs : Memory.wf s.mem = true)
    (h : s.idx.toNat + x.val ≤ 4095) {a : Nat} (ha : ∀ k : Reg, k ≤ x → s.idx.toNat + k.val ≠ a) :
    Memory.byte (Memory.setBytes s.mem s.idx.toNat (s.regsUpTo x)) a = Memory.byte s.mem a := by
  rw [byte_setBytes_regsUpTo hs h]
  split
  · next hle =>
    have hlen : (s.regsUpTo x).length ≤ a - s.idx.toNat := by
      rw [State.regsUpTo_length]
      by_contra hlt
      exact ha ⟨a - s.idx.toNat, by omega⟩ (Fin.le_def.mpr (by simp only; omega)) (by simp only; omega)
    exact List.getD_eq_default _ _ hlen
  · rfl

/-! ### Coherence (R212, R714) -/

/-- Settles O28: each half of the word fetched next is the byte that memory holds after the store. -/
theorem storedInstructionIsFetchedNext : Obligations.StoredInstructionIsFetchedNext := by
  intro s x hs hx hpc
  refine ⟨_, _, exec_storeRegisters_of_le hx, State.fetch_of_pc_le hpc, ?_, ?_, ?_, ?_⟩
  · intro k hk ha
    exact (bigEndian_toNat_div ..).trans (congrArg _ (byte_setBytes_regsUpTo_stored hs hx hk ha))
  · intro k hk ha
    exact (bigEndian_toNat_mod ..).trans (congrArg _ (byte_setBytes_regsUpTo_stored hs hx hk ha))
  · intro ha
    exact (bigEndian_toNat_div ..).trans (congrArg _ (byte_setBytes_regsUpTo_other hs hx ha))
  · intro ha
    exact (bigEndian_toNat_mod ..).trans (congrArg _ (byte_setBytes_regsUpTo_other hs hx ha))

end Sys2Proof.Machine
end

section
/-! SUPPORT. The decoder and the encoder undo each other, and the words that are no instruction (R300 to R313). -/

namespace Sys2Proof

/-! ### A word put together again from its fields (R301, R303) -/

theorem wordA_of_fields {w : Word} {f : Nat} (hf : (fieldF w).val = f) : wordA f (fieldNNN w) = w := by
  subst hf
  apply BitVec.eq_of_toNat_eq
  rw [wordA_toNat (fieldF w).isLt]
  simp only [fieldF, fieldNNN, Fin.val_ofNat, BitVec.toNat_setWidth]
  omega

theorem wordXB_of_fields {w : Word} {f : Nat} {nn : Byte} (hf : (fieldF w).val = f) (hnn : fieldNN w = nn) :
    wordXB f (fieldX w) nn = w := by
  subst hf hnn
  apply BitVec.eq_of_toNat_eq
  rw [wordXB_toNat (fieldF w).isLt]
  simp only [fieldF, fieldX, fieldNN, Fin.val_ofNat, BitVec.toNat_setWidth]
  omega

theorem wordXYN_of_fields {w : Word} {f : Nat} {n : Fin 16} (hf : (fieldF w).val = f) (hn : fieldN w = n) :
    wordXYN f (fieldX w) (fieldY w) n = w := by
  subst hf hn
  apply BitVec.eq_of_toNat_eq
  rw [wordXYN_toNat (fieldF w).isLt, ← fields_toNat]

theorem wordXYN_zero_of_fields {w : Word} {f : Nat} (hf : (fieldF w).val = f) :
    wordXYN f (fieldX w) (fieldY w) 0 = w &&& 0xFFF0#16 := by
  have hmask : w &&& 0xFFF0#16 = w >>> 4 <<< 4 := (BitVec.shiftLeft_ushiftRight (x := w) (n := 4)).symm
  subst hf
  apply BitVec.eq_of_toNat_eq
  rw [wordXYN_toNat (fieldF w).isLt, hmask, BitVec.toNat_shiftLeft, BitVec.toNat_ushiftRight,
    Nat.shiftRight_eq_div_pow, Nat.shiftLeft_eq]
  simp only [fieldF, fieldX, fieldY, Fin.val_ofNat, Fin.val_zero]
  omega

theorem wordA_inj {f : Nat} (hf : f < 16) {a b : Addr} : wordA f a = wordA f b ↔ a = b :=
  ⟨fun h => by rw [← fieldNNN_wordA hf a, h, fieldNNN_wordA hf], congrArg _⟩

/-! ### Family 0 (R306) -/

/-- Family 0 in terms of NNN: the words of Clear and of Return are those of 0E0 and 0EE. -/
theorem decodeWord_wordA_zero (chk : Bool) (nnn : Addr) :
    decodeWord chk (wordA 0 nnn) =
      .ok (if nnn = 0x0E0#12 then .clear else if nnn = 0x0EE#12 then .ret else .machineCall nnn) := by
  have hzero : 0 < 16 := by decide
  have hclear : 0x00E0#16 = wordA 0 0x0E0#12 := rfl
  have hret : 0x00EE#16 = wordA 0 0x0EE#12 := rfl
  simp only [decodeWord, fieldF_wordA hzero, decodeFamily0, hclear, hret, wordA_inj hzero, fieldNNN_wordA hzero]

theorem wellFormed_machineCall {nnn : Addr} :
    WellFormed (.machineCall nnn) ↔ nnn ≠ 0x0E0#12 ∧ nnn ≠ 0x0EE#12 := by
  simp [WellFormed, Instr.wellFormed]

/-! ### Decoding an encoding -/

/-- The fields of the word of each format are the operands, and the dispatch on them leads back to the variant. -/
theorem decodeWord_encode (chk : Bool) {i : Instr} (hi : WellFormed i) : decodeWord chk (encode i) = .ok i := by
  cases i with
  | clear | ret => rfl
  | machineCall nnn =>
    obtain ⟨hclear, hret⟩ := wellFormed_machineCall.mp hi
    rw [encode, decodeWord_wordA_zero, if_neg hclear, if_neg hret]
  | jump nnn | call nnn | loadIndex nnn | jumpPlusV0 nnn =>
    simp [encode, decodeWord, fieldF_wordA, fieldNNN_wordA]
  | skipEqConst x nn | skipNeqConst x nn | loadImm x nn | addConst x nn | random x nn =>
    simp [encode, decodeWord, fieldF_wordXB, fieldX_wordXB, fieldNN_wordXB]
  | skipEqReg x y | skipNeqReg x y =>
    simp [encode, decodeWord, decodeXY, fieldF_wordXYN, fieldX_wordXYN, fieldY_wordXYN, fieldN_wordXYN]
  | loadReg x y | orReg x y | andReg x y | xorReg x y | addReg x y | subReg x y | shiftRight x y | subnReg x y
  | shiftLeft x y =>
    simp [encode, decodeWord, decodeFamily8, fieldF_wordXYN, fieldX_wordXYN, fieldY_wordXYN, fieldN_wordXYN]
  | draw x y n =>
    simp [encode, decodeWord, fieldF_wordXYN, fieldX_wordXYN, fieldY_wordXYN, fieldN_wordXYN]
  | keyPressSkip x | keyNotPressSkip x =>
    simp [encode, decodeWord, decodeFamilyE, fieldF_wordXB, fieldX_wordXB, fieldNN_wordXB]
  | delayTimerLoadFrom x | keyLoad x | delayTimerLoadInto x | soundLoad x | addIndex x | locateSprite x | loadBcd x
  | storeRegisters x | readRegisters x =>
    simp [encode, decodeWord, decodeFamilyF, fieldF_wordXB, fieldX_wordXB, fieldNN_wordXB]

theorem decode_encodeBytes_append (chk : Bool) (i : Instr) (rest : List Byte) :
    decode chk (encodeBytes i ++ rest) = (decodeWord chk (encode i)).map fun j => (j, rest) := by
  simp only [encodeBytes, List.cons_append, List.nil_append, decode, bigEndian_highByte_lowByte]

/-- Settles O1: the two bytes make up the word again, and the word decodes to its instruction. -/
theorem decodeOfEncodedInstruction : Obligations.DecodeOfEncodedInstruction := by
  intro chk i rest hi
  rw [decode_encodeBytes_append, decodeWord_encode chk hi]
  rfl

/-- Settles O4: the word 0NNN is Clear's or Return's exactly when its NNN is. -/
theorem familyZeroWords : Obligations.FamilyZeroWords := decodeWord_wordA_zero

/-- Settles O5: the six words are the encodings of the six instructions. -/
theorem sampleWordsDecode : Obligations.SampleWordsDecode :=
  ⟨decodeWord_encode false (i := .clear) rfl, decodeWord_encode false (i := .call 0x20E#12) rfl,
    decodeWord_encode false (i := .addReg 0xA 0xB) rfl, decodeWord_encode false (i := .draw 1 2 3) rfl,
    decodeWord_encode false (i := .keyPressSkip 4) rfl, decodeWord_encode false (i := .storeRegisters 2) rfl⟩

/-! ### Everything the decoder can do with a word -/

/-- `i` is an instruction of the block and `w` is its word. -/
structure Instr.CodedAs (i : Instr) (w : Word) : Prop where
  wellFormed : WellFormed i
  encode_eq : encode i = w

theorem decodeFamily0_codedAs {w : Word} (hf : fieldF w = 0) : (decodeFamily0 w).CodedAs w := by
  unfold decodeFamily0
  split_ifs with hclear hret
  · exact ⟨rfl, hclear.symm⟩
  · exact ⟨rfl, hret.symm⟩
  · have hw := wordA_of_fields (congrArg Fin.val hf)
    refine ⟨wellFormed_machineCall.mpr ⟨fun h => hclear ?_, fun h => hret ?_⟩, hw⟩
    · rw [← hw, h]; rfl
    · rw [← hw, h]; rfl

/-- What the first-level dispatch (R304, R305) answers: an instruction at once, or what one of the conditional decoders
answers. -/
inductive Dispatch (chk : Bool) (w : Word) : Except DecodeFailure Instr → Prop
  | assigned {i : Instr} (hf : fieldF w ∉ [5, 8, 9, 0xE, 0xF]) (hi : i.CodedAs w) : Dispatch chk w (.ok i)
  | lowNibble {i : Instr} (hf : fieldF w = 5 ∨ fieldF w = 9) (hi : i.CodedAs (w &&& 0xFFF0#16)) :
    Dispatch chk w (decodeXY chk i w)
  | family8 (hf : fieldF w = 8) : Dispatch chk w (decodeFamily8 w)
  | familyE (hf : fieldF w = 0xE) : Dispatch chk w (decodeFamilyE w)
  | familyF (hf : fieldF w = 0xF) : Dispatch chk w (decodeFamilyF w)

theorem dispatch_decodeWord (chk : Bool) (w : Word) : Dispatch chk w (decodeWord chk w) := by
  unfold decodeWord
  match hf : fieldF w with
  | 0x0 => exact .assigned (by rw [hf]; decide) (decodeFamily0_codedAs hf)
  | 0x1 | 0x2 | 0xA | 0xB =>
    exact .assigned (by rw [hf]; decide) ⟨rfl, wordA_of_fields (congrArg Fin.val hf)⟩
  | 0x3 | 0x4 | 0x6 | 0x7 | 0xC =>
    exact .assigned (by rw [hf]; decide) ⟨rfl, wordXB_of_fields (congrArg Fin.val hf) rfl⟩
  | 0xD => exact .assigned (by rw [hf]; decide) ⟨rfl, wordXYN_of_fields (congrArg Fin.val hf) rfl⟩
  | 0x5 => exact .lowNibble (.inl hf) ⟨rfl, wordXYN_zero_of_fields (congrArg Fin.val hf)⟩
  | 0x9 => exact .lowNibble (.inr hf) ⟨rfl, wordXYN_zero_of_fields (congrArg Fin.val hf)⟩
  | 0x8 => exact .family8 hf
  | 0xE => exact .familyE hf
  | 0xF => exact .familyF hf
  | ⟨_ + 16, hlt⟩ => omega

/-! ### Encoding what a word decodes to -/

section CodedAs

variable {w : Word} {i : Instr}

theorem decodeFamily8_codedAs (hf : fieldF w = 8) (h : decodeFamily8 w = .ok i) : i.CodedAs w := by
  unfold decodeFamily8 at h
  split at h <;> cases h
  all_goals
    next hn => exact ⟨rfl, wordXYN_of_fields (congrArg Fin.val hf) (Fin.ext hn)⟩

theorem decodeFamilyE_codedAs (hf : fieldF w = 0xE) (h : decodeFamilyE w = .ok i) : i.CodedAs w := by
  unfold decodeFamilyE at h
  split_ifs at h <;> cases h
  all_goals exact ⟨rfl, wordXB_of_fields (congrArg Fin.val hf) (by assumption)⟩

theorem decodeFamilyF_codedAs (hf : fieldF w = 0xF) (h : decodeFamilyF w = .ok i) : i.CodedAs w := by
  unfold decodeFamilyF at h
  split_ifs at h <;> cases h
  all_goals exact ⟨rfl, wordXB_of_fields (congrArg Fin.val hf) (by assumption)⟩

theorem eq_of_decodeXY_eq_ok {chk : Bool} {j : Instr} (h : decodeXY chk j w = .ok i) : j = i := by
  unfold decodeXY at h
  split_ifs at h
  exact Except.ok.inj h

end CodedAs

theorem Dispatch.codedAs {chk : Bool} {w : Word} {r : Except DecodeFailure Instr} {i : Instr}
    (hd : Dispatch chk w r) (hr : r = .ok i) :
    i.CodedAs w ∨ ((fieldF w = 5 ∨ fieldF w = 9) ∧ i.CodedAs (w &&& 0xFFF0#16)) := by
  cases hd with
  | assigned _ hi => exact .inl (Except.ok.inj hr ▸ hi)
  | lowNibble hf hi => exact .inr ⟨hf, eq_of_decodeXY_eq_ok hr ▸ hi⟩
  | family8 hf => exact .inl (decodeFamily8_codedAs hf hr)
  | familyE hf => exact .inl (decodeFamilyE_codedAs hf hr)
  | familyF hf => exact .inl (decodeFamilyF_codedAs hf hr)

/-- Settles O2: an instruction is decoded from its own word, or in families 5 and 9 from a word that differs in N. -/
theorem encodeOfDecodedWord : Obligations.EncodeOfDecodedWord := by
  intro chk w i h
  obtain ⟨hwf, henc⟩ | ⟨hf, hwf, henc⟩ := (dispatch_decodeWord chk w).codedAs h
  · exact ⟨hwf, .inl henc⟩
  · exact ⟨hwf, .inr ⟨hf, henc⟩⟩

/-! ### The unassigned words (R308 to R312) -/

theorem decodeFamily8_error_iff (w : Word) :
    (∃ e, decodeFamily8 w = .error e) ↔ fieldN w ∈ ([8, 9, 0xA, 0xB, 0xC, 0xD, 0xF] : List (Fin 16)) := by
  unfold decodeFamily8
  generalize fieldN w = n
  fin_cases n <;> simp

theorem decodeFamilyE_error_iff (w : Word) :
    (∃ e, decodeFamilyE w = .error e) ↔ fieldNN w ∉ [0x9E#8, 0xA1#8] := by
  unfold decodeFamilyE
  split_ifs <;> simp [*]

theorem decodeFamilyF_error_iff (w : Word) : (∃ e, decodeFamilyF w = .error e) ↔
    fieldNN w ∉ [0x07#8, 0x0A#8, 0x15#8, 0x18#8, 0x1E#8, 0x29#8, 0x33#8, 0x55#8, 0x65#8] := by
  unfold decodeFamilyF
  split_ifs <;> simp [*]

theorem decodeXY_error_iff (chk : Bool) (i : Instr) (w : Word) :
    (∃ e, decodeXY chk i w = .error e) ↔ chk = true ∧ fieldN w ≠ 0 := by
  unfold decodeXY
  split_ifs with h <;> simpa using h

/-- Settles O3: each decoder of the second level fails on the words of its own family, and no other does. -/
theorem decodeFailsExactlyOnUnassignedWords : Obligations.DecodeFailsExactlyOnUnassignedWords := by
  intro chk w
  have hd := dispatch_decodeWord chk w
  generalize decodeWord chk w = r at hd
  cases hd with
  | assigned hf _ =>
    obtain ⟨h5, h8, h9, hE, hF⟩ :
        fieldF w ≠ 5 ∧ fieldF w ≠ 8 ∧ fieldF w ≠ 9 ∧ fieldF w ≠ 0xE ∧ fieldF w ≠ 0xF := by simpa using hf
    simp [h5, h8, h9, hE, hF]
  | lowNibble hf _ =>
    rw [decodeXY_error_iff]
    obtain hf | hf := hf <;> simp [hf]
  | family8 hf => rw [decodeFamily8_error_iff]; simp [hf]
  | familyE hf => rw [decodeFamilyE_error_iff]; simp [hf]
  | familyF hf => rw [decodeFamilyF_error_iff]; simp [hf]

end Sys2Proof
end

section
/-! SUPPORT. What one step does in each case of the per-cycle contract (R400 to R409), and what any number of steps do
while a key load waits (R410, R563, R712). -/

namespace Sys2Proof.Machine

open Sys2Proof.Claims

/-! ### Timers (R630) -/

theorem decrement_toNat (b : Byte) : (decrement b).toNat = b.toNat - 1 := by
  unfold decrement
  split <;> bv_omega

theorem decrement_eq_ofNat (b : Byte) : decrement b = BitVec.ofNat 8 (b.toNat - 1) := by
  rw [← decrement_toNat, BitVec.ofNat_toNat, BitVec.setWidth_eq]

theorem toNat_ofNat_toNat_sub (b : Byte) (k : Nat) : (BitVec.ofNat 8 (b.toNat - k)).toNat = b.toNat - k := by
  rw [BitVec.toNat_ofNat]
  omega

/-! ### One equation for each end of a step (R400 to R404, R409) -/

section Step

variable {s u : State} {w : Word} {i : Instr}

theorem step_of_stopped (hs : s.status = .stopped) : step s = .fault .runStopped := by
  rw [step, hs]

theorem step_of_faulted {r : FaultRecord} (hs : s.status = .faulted r) : step s = .fault (.runFaulted r) := by
  rw [step, hs]

theorem step_eq_cycle (hs : s.status = .running) : step s = mapNext State.dropSample (cycle s.clearFrame) := by
  rw [step, hs]

theorem step_of_fetch_none (hs : s.status = .running) (hf : s.fetch = none) :
    step s = .next (s.clearFrame.raise .boundsViolation s.pc none).dropSample := by
  rw [step_eq_cycle hs, cycle, State.clearFrame_fetch, hf]
  rfl

theorem step_of_decode_error {e : DecodeFailure} (hs : s.status = .running) (hf : s.fetch = some w)
    (hd : decodeWord s.cfg.lowNibbleCheck59 w = .error e) :
    step s = .next (s.clearFrame.raise .decodeFailure s.pc (some w)).dropSample := by
  simp only [step_eq_cycle hs, cycle, State.clearFrame_fetch, hf, State.clearFrame_cfg, hd]
  rfl

theorem step_of_exec (h : AtInstruction s w i) (hu : exec i s.clearFrame = .next u) :
    step s = .next (u.afterExec s.pc w).dropSample := by
  obtain ⟨hs, hf, hd⟩ := h
  simp only [step_eq_cycle hs, cycle, State.clearFrame_fetch, hf, State.clearFrame_cfg, hd, hu]
  rfl

end Step

/-! ### Parts 5 and 6 (R405 to R408) -/

section Finish

variable {u : State} (a w : Word)

theorem State.afterExec_of_running (hu : u.status = .running) : u.afterExec a w = u.finish a w := by
  rw [State.afterExec, hu]

theorem State.afterExec_of_not_running (hu : u.status ≠ .running) : u.afterExec a w = u := by
  unfold State.afterExec
  split
  · next h => exact absurd h hu
  · rfl
  · rfl

theorem State.finish_of_not_presented (hp : u.sample.presentOk = false) :
    u.finish a w = u.present.raise .presentFailure a (some w) :=
  if_neg (by simp [hp])

theorem State.finish_of_goesOn (hgo : GoesOn u.sample) : u.finish a w = u.present.tick := by
  obtain ⟨hp, hr⟩ := hgo
  rw [State.finish, State.finishTimers, if_pos hp, if_pos hr]

/-- After a delivered frame the timers fall, and the status tells whether the run goes on. -/
theorem State.finish_of_presented (hu : u.status = .running) (hp : u.sample.presentOk = true) :
    u.finish a w = { u.present.tick with status := if u.sample.running then .running else .stopped } := by
  rw [State.finish, State.finishTimers, if_pos hp]
  split
  · rw [← hu]; rfl
  · rfl

end Finish

/-! ### The statements on one step -/

/-- Settles O42: `step` looks at the status first. -/
theorem onlyARunningBlockSteps : Obligations.OnlyARunningBlockSteps := fun _ =>
  ⟨⟨step_of_running, fun ⟨_, ht⟩ => (step_cases ht).1⟩, step_of_stopped, fun _ => step_of_faulted⟩

/-- Settles O40: PC above 4094 is where the fetch gives no word. -/
theorem fetchPastMemoryFaults : Obligations.FetchPastMemoryFaults := fun _ hs hpc =>
  step_of_fetch_none hs (State.fetch_eq_none.mpr hpc)

/-- A machine call keeps its whole word: it is of family 0, so not of those that forget their low nibble (R306). -/
theorem encode_of_decodeWord_machineCall {chk : Bool} {w : Word} {nnn : Addr}
    (h : decodeWord chk w = .ok (.machineCall nnn)) : encode (.machineCall nnn) = w := by
  obtain ⟨-, henc | ⟨hf, henc⟩⟩ := encodeOfDecodedWord chk w _ h
  · exact henc
  · have hzero : (fieldF (encode (.machineCall nnn))).val = 0 := Laws.FamilyNibble.machineCall nnn
    rw [henc, ← wordXYN_zero_of_fields rfl, fieldF_wordXYN (fieldF w).isLt] at hzero
    obtain hf | hf := hf <;> simp [hf] at hzero

/-- Settles O41: neither refusal of the decode part gets to the PC advance or to the frame. -/
theorem undecodableWordFaults : Obligations.UndecodableWordFaults := by
  intro s w hs hf
  constructor
  · rintro ⟨e, hd⟩
    exact step_of_decode_error hs hf hd
  · rintro ⟨nnn, hd⟩
    have hu : exec (.machineCall nnn) s.clearFrame = .next (s.clearFrame.raise .machineCall s.pc (some w)) := by
      rw [← encode_of_decodeWord_machineCall hd]; rfl
    rw [step_of_exec ⟨hs, hf, hd⟩ hu, State.afterExec_of_not_running _ _ (by simp)]
    rfl

/-- Settles O38: the instruction leaves the sample alone, so parts 5 and 6 see the one of this step. -/
theorem stepRunsTheDecodedInstruction : Obligations.StepRunsTheDecodedInstruction := by
  intro s w i h
  obtain ⟨u, hu, hface⟩ := exec_next i s.clearFrame
  have hsample : u.sample = s.sample := hface.sample
  refine ⟨u, hu, ?_⟩
  rw [step_of_exec h hu, ← hsample]
  refine ⟨fun hfault => ?_, fun hrun hp => ?_, fun hrun hp => ?_⟩
  · rw [State.afterExec_of_not_running _ _ hfault]; rfl
  · rw [State.afterExec_of_running _ _ hrun, State.finish_of_not_presented _ _ hp]; rfl
  · rw [State.afterExec_of_running _ _ hrun, State.finish_of_presented _ _ hrun hp, ← decrement_eq_ofNat,
      ← decrement_eq_ofNat]
    rfl

/-! ### Any number of steps of a waiting key load (R410, R563, R712) -/

theorem Reaches.cons {k : Nat} {s u t : State} (hstep : step s = .next u) (h : Reaches k u t) :
    Reaches (k + 1) s t := by
  simp only [Reaches, Host.Core.run, show Sys2Proof.core.step s = .next u from hstep]
  exact h

/-- Where `k` full steps lead that do nothing in part 4: the timers have fallen by `k`, the samples are used up, and the
last step has delivered the display. -/
def State.afterIdleSteps (k : Nat) (s : State) : State :=
  { s with
    dt := BitVec.ofNat 8 (s.dt.toNat - k)
    st := BitVec.ofNat 8 (s.st.toNat - k)
    frame := if k = 0 then s.frame else some s.disp
    inputs := s.inputs.drop k
    inputNo := s.inputNo + k }

theorem State.afterIdleSteps_zero (s : State) : s.afterIdleSteps 0 = s := by
  simp [State.afterIdleSteps]

theorem State.afterIdleSteps_succ (k : Nat) (s : State) :
    s.afterIdleSteps (k + 1) = s.present.tick.dropSample.afterIdleSteps k := by
  simp [State.afterIdleSteps, decrement_toNat, Nat.sub_sub, Nat.add_assoc, Nat.add_comm 1 k]

theorem atInstruction_afterIdleSteps {s : State} {w : Word} {i : Instr} (h : AtInstruction s w i) (k : Nat) :
    AtInstruction (s.afterIdleSteps k) w i :=
  h

theorem State.sample_of_cons {s : State} {inp : Inputs} {rest : List Inputs} (h : s.inputs = inp :: rest) :
    s.sample = inp := by
  rw [State.sample, h]

/-- A step of a key load without a key does nothing but deliver the frame and let the timers fall. -/
theorem step_keyLoad_waits {s : State} {w : Word} {x : Reg} (h : AtInstruction s w (.keyLoad x))
    (hkey : s.sample.availKey = none) (hgo : GoesOn s.sample) : step s = .next s.present.tick.dropSample := by
  have hrun : s.clearFrame.status = .running := h.1
  rw [step_of_exec h (exec_keyLoad_none x hkey), State.afterExec_of_running _ _ hrun,
    State.finish_of_goesOn (u := s.clearFrame) _ _ hgo]
  rfl

theorem reaches_afterIdleSteps_of_keyLoad {w : Word} {x : Reg} : ∀ (k : Nat) {s : State},
    AtInstruction s w (.keyLoad x) → k ≤ s.inputs.length →
    (∀ inp ∈ s.inputs.take k, inp.availKey = none ∧ GoesOn inp) → Reaches k s (s.afterIdleSteps k)
  | 0, s, _, _, _ => by rw [s.afterIdleSteps_zero]; rfl
  | k + 1, s, h, hk, hin => by
    obtain ⟨inp, rest, hs⟩ := List.exists_cons_of_length_pos (Nat.lt_of_lt_of_le k.succ_pos hk)
    rw [hs, List.take_succ_cons, List.forall_mem_cons] at hin
    obtain ⟨⟨hkey, hgo⟩, hrest⟩ := hin
    rw [← State.sample_of_cons hs] at hkey hgo
    rw [s.afterIdleSteps_succ]
    refine .cons (step_keyLoad_waits h hkey hgo) (reaches_afterIdleSteps_of_keyLoad k h ?_ ?_)
    · simpa [hs] using hk
    · simpa [hs] using hrest

/-- Settles O36: by induction on the steps, each of which only delivers the frame and lets the timers fall. -/
theorem keyWaitHoldsTheBlock : Obligations.KeyWaitHoldsTheBlock := by
  intro k s w x h hk hin
  refine ⟨s.afterIdleSteps k, reaches_afterIdleSteps_of_keyLoad k h hk hin, rfl,
    atInstruction_afterIdleSteps h k, rfl, rfl, rfl, rfl, rfl, rfl, ?_, ?_, fun hpos => if_neg hpos.ne'⟩
  · exact toNat_ofNat_toNat_sub s.dt k
  · exact toNat_ofNat_toNat_sub s.st k

end Sys2Proof.Machine
end

section
/-! SUPPORT. Control flow: where each of the five instructions leads, and what a Return after a Call undoes
(41_control_flow.md, R420 to R425). -/

namespace Sys2Proof.Machine

open Sys2Proof.Claims

/-! ### The frame of an instruction that completes (R102, R113) -/

/-- The table of who writes what gives the frame of every instruction that leaves the status alone. -/
theorem exec_sameExcept {i : Instr} {s t : State} (h : exec i s = .next t) (hstatus : t.status = s.status) :
    SameExcept (writesParts i) (writesRegs i) s t := by
  obtain ⟨hreg, hidx, hstack, hdt, hst, hmem, hdisp, hrngN⟩ := exec_writesOnly h
  obtain ⟨hframe, hinputs, hinputNo, hcfg⟩ := of_exec_next (exec_next i s) h
  exact ⟨hreg, hidx, hstack, hdt, hst, fun hi a => congrArg (Memory.byte · a) (hmem hi), hdisp, hrngN, hstatus, hframe,
    hinputs, hinputNo, hcfg⟩

/-! ### Operands and the full stack (R302, R422) -/

@[simp] theorem zextAddr_toNat (nnn : Addr) : (zextAddr nnn).toNat = nnn.toNat :=
  BitVec.toNat_setWidth_of_le (by decide)

@[simp] theorem zextByte_toNat (b : Byte) : (zextByte b).toNat = b.toNat :=
  BitVec.toNat_setWidth_of_le (by decide)

/-- The exact sum of R423 fits in 16 bits. -/
theorem zextAddr_add_zextByte_toNat (nnn : Addr) (b : Byte) :
    (zextAddr nnn + zextByte b).toNat = nnn.toNat + b.toNat := by
  rw [BitVec.toNat_add, zextAddr_toNat, zextByte_toNat]
  omega

theorem State.stackFull_iff {s : State} : s.stackFull = true ↔ s.cfg.stackDepth = some s.stack.length :=
  beq_iff_eq

theorem State.stackFull_eq_false_iff {s : State} :
    s.stackFull = false ↔ s.cfg.stackDepth ≠ some s.stack.length :=
  beq_eq_false_iff_ne

/-! ### The two jumps, which have no branch (R421, R423) -/

theorem exec_jump (nnn : Addr) (s : State) : exec (.jump nnn) s = .next (s.advance.setPc (zextAddr nnn)) := rfl

theorem exec_jumpPlusV0 (nnn : Addr) (s : State) :
    exec (.jumpPlusV0 nnn) s = .next (s.advance.setPc (zextAddr nnn + zextByte (s.reg 0))) := rfl

/-! ### The statements -/

/-- Settles O11: the body is left with the return address on top, and Return pops just that. -/
theorem returnUndoesCall : Obligations.ReturnUndoesCall := by
  intro s t b nnn hroom hcall hb
  rw [exec_call_room nnn (State.stackFull_eq_false_iff.mpr hroom)] at hcall
  obtain rfl := Host.Outcome.next.inj hcall
  have hstack : b.stack = (s.pc + 2) :: s.stack := hb
  exact ⟨_, exec_ret_cons hstack, rfl, congrArg List.tail hstack⟩

/-- Settles O6: PC is the popped address, whose bound is the one the state keeps for its stack. -/
theorem returnPopsTheCallStack : Obligations.ReturnPopsTheCallStack := by
  refine ⟨fun chk => decodeWord_encode chk (i := .ret) rfl, ?_, fun s hs => exec_ret_nil hs⟩
  intro s top rest hs
  have hret := exec_ret_cons hs
  refine ⟨_, hret, rfl, congrArg List.tail hs, exec_sameExcept hret rfl, ?_, State.fetch_eq_none.mpr⟩
  exact fun hbound => hbound.2 top (hs ▸ List.mem_cons_self)

/-- Settles O7: Jump is one write of PC. -/
theorem jumpLoadsThePc : Obligations.JumpLoadsThePc := by
  refine fun chk nnn => ⟨decodeWord_encode chk (i := .jump nnn) rfl, fun s => ?_⟩
  have hjump := exec_jump nnn s
  exact ⟨_, hjump, zextAddr_toNat nnn, exec_sameExcept hjump rfl⟩

/-- Settles O8: the branch on a full stack, one side each. -/
theorem callPushesTheReturnAddress : Obligations.CallPushesTheReturnAddress := by
  refine fun chk nnn => ⟨decodeWord_encode chk (i := .call nnn) rfl, fun s => ⟨fun hroom => ?_, fun hfull => ?_⟩⟩
  · have hcall := exec_call_room nnn (State.stackFull_eq_false_iff.mpr hroom)
    exact ⟨_, hcall, zextAddr_toNat nnn, rfl, exec_sameExcept hcall rfl⟩
  · exact exec_call_full nnn (State.stackFull_iff.mpr hfull)

/-- Settles O9: the sum does not wrap, and the fetch checks it against the end of memory. -/
theorem jumpPlusV0AddsV0 : Obligations.JumpPlusV0AddsV0 := by
  refine fun chk nnn => ⟨decodeWord_encode chk (i := .jumpPlusV0 nnn) rfl, fun s => ?_⟩
  have hjump := exec_jumpPlusV0 nnn s
  exact ⟨_, hjump, zextAddr_add_zextByte_toNat nnn (s.reg 0), exec_sameExcept hjump rfl, State.fetch_eq_none.mpr⟩

/-- Settles O10: 0NNN is the encoding of a well-formed machine call, which only raises its fault. -/
theorem machineCallAlwaysFaults : Obligations.MachineCallAlwaysFaults := fun nnn hclear hret =>
  ⟨fun chk => decodeWord_encode chk (wellFormed_machineCall.mpr ⟨hclear, hret⟩ : WellFormed (.machineCall nnn)),
    fun _ => rfl⟩

end Sys2Proof.Machine
end

section
/-! SUPPORT. The six skips: the condition each one skips on, that the condition does not look at memory, and what a
skip does to PC (42_skip.md, R440 to R446). -/

namespace Sys2Proof.Machine

open Sys2Proof.Claims

/-! ### The skip mechanism (R446) -/

theorem State.skipIf_pc (s : State) (c : Bool) : (s.skipIf c).pc = if c then s.pc + 4 else s.pc + 2 := by
  rw [State.skipIf_eq_setPc, State.setPc_pc, BitVec.add_assoc]
  rfl

theorem sameExcept_skipIf (s : State) (c : Bool) : SameExcept [] [] s (s.skipIf c) := by
  rw [State.skipIf_eq_setPc]
  constructor <;> intros <;> rfl

theorem State.skipIf_withMem (s : State) (m : Memory) (c : Bool) :
    State.skipIf { s with mem := m } c = { s.skipIf c with mem := m } := by
  simp only [State.skipIf_eq_setPc]
  rfl

/-! ### The condition of each skip (R440 to R445) -/

/-- `i` does nothing but skip on `cond`, which does not look at memory. -/
structure SkipsOn (i : Instr) (cond : State → Bool) : Prop where
  exec_eq : ∀ s, exec i s = .next (s.skipIf (cond s)) := by intros; rfl
  cond_withMem : ∀ s m, cond { s with mem := m } = cond s := by intros; rfl

theorem skipsOn_skipEqConst (x : Reg) (nn : Byte) : SkipsOn (.skipEqConst x nn) fun s => s.reg x == nn := {}

theorem skipsOn_skipNeqConst (x : Reg) (nn : Byte) : SkipsOn (.skipNeqConst x nn) fun s => s.reg x != nn := {}

theorem skipsOn_skipEqReg (x y : Reg) : SkipsOn (.skipEqReg x y) fun s => s.reg x == s.reg y := {}

theorem skipsOn_skipNeqReg (x y : Reg) : SkipsOn (.skipNeqReg x y) fun s => s.reg x != s.reg y := {}

theorem skipsOn_keyPressSkip (x : Reg) : SkipsOn (.keyPressSkip x) fun s => s.keyDown (keyOf (s.reg x)) := {}

theorem skipsOn_keyNotPressSkip (x : Reg) : SkipsOn (.keyNotPressSkip x) fun s => !s.keyDown (keyOf (s.reg x)) := {}

/-- The key an instruction tests is named by the low nibble of its register (R113, R115). -/
theorem State.keyDown_keyOf (s : State) (b : Byte) : s.keyDown (keyOf b) = s.sample.keysDown.getLsbD (b.toNat % 16) :=
  rfl

section SkipsOn

variable {i : Instr} {cond : State → Bool}

theorem SkipsOn.skipsIff (h : SkipsOn i cond) {s : State} {p : Prop} (hp : cond s = true ↔ p) : SkipsIff i s p := by
  refine ⟨_, h.exec_eq s, sameExcept_skipIf s _, fun htrue => ?_, fun hfalse => ?_⟩
  · rw [State.skipIf_pc, if_pos (hp.mpr htrue)]
  · rw [State.skipIf_pc, if_neg (mt hp.mp hfalse)]

theorem SkipsOn.exec_withMem (h : SkipsOn i cond) (s : State) (m : Memory) :
    exec i { s with mem := m } = .next { s.skipIf (cond s) with mem := m } := by
  rw [h.exec_eq, h.cond_withMem, State.skipIf_withMem]

end SkipsOn

theorem exists_skipsOn_of_mem (x y : Reg) (nn : Byte) :
    ∀ i ∈ [.skipEqConst x nn, .skipNeqConst x nn, .skipEqReg x y, .skipNeqReg x y, .keyPressSkip x,
      .keyNotPressSkip x], ∃ cond, SkipsOn i cond := by
  simp only [List.forall_mem_cons]
  exact ⟨⟨_, skipsOn_skipEqConst x nn⟩, ⟨_, skipsOn_skipNeqConst x nn⟩, ⟨_, skipsOn_skipEqReg x y⟩,
    ⟨_, skipsOn_skipNeqReg x y⟩, ⟨_, skipsOn_keyPressSkip x⟩, ⟨_, skipsOn_keyNotPressSkip x⟩, List.forall_mem_nil _⟩

/-! ### The low nibble of families 5 and 9 (R308) -/

theorem decodeWord_wordXYN_five (chk : Bool) (x y : Reg) (n : Fin 16) :
    decodeWord chk (wordXYN 0x5 x y n) = decodeXY chk (.skipEqReg x y) (wordXYN 0x5 x y n) := by
  simp [decodeWord, fieldF_wordXYN, fieldX_wordXYN, fieldY_wordXYN]

theorem decodeWord_wordXYN_nine (chk : Bool) (x y : Reg) (n : Fin 16) :
    decodeWord chk (wordXYN 0x9 x y n) = decodeXY chk (.skipNeqReg x y) (wordXYN 0x9 x y n) := by
  simp [decodeWord, fieldF_wordXYN, fieldX_wordXYN, fieldY_wordXYN]

theorem decodeXY_unchecked (i : Instr) (w : Word) : decodeXY false i w = .ok i := rfl

/-- A checking build refuses a nonzero low nibble. -/
theorem decodeXY_checked_wordXYN {f : Nat} (hf : f < 16) (i : Instr) (x y : Reg) {n : Fin 16} (hn : n ≠ 0) :
    ∃ e, decodeXY true i (wordXYN f x y n) = .error e :=
  (decodeXY_error_iff ..).mpr ⟨rfl, by rwa [fieldN_wordXYN hf]⟩

/-! ### The statements -/

/-- Settles O15: a skip moves PC only, on a condition that is the same whatever memory holds. -/
theorem skippedWordPlaysNoPart : Obligations.SkippedWordPlaysNoPart := by
  intro i x y nn hi s
  obtain ⟨cond, hskip⟩ := exists_skipsOn_of_mem x y nn i hi
  refine ⟨_, hskip.exec_eq s, ?_, sameExcept_skipIf s _, hskip.exec_withMem s⟩
  rw [State.skipIf_pc]
  cases cond s with
  | false => exact .inl rfl
  | true => exact .inr rfl

/-- Settles O12: the two compare Vx with the constant. -/
theorem skipsCompareWithConstant : Obligations.SkipsCompareWithConstant := fun x nn =>
  ⟨fun chk => decodeWord_encode chk (i := .skipEqConst x nn) rfl,
    fun chk => decodeWord_encode chk (i := .skipNeqConst x nn) rfl,
    fun _ => ⟨(skipsOn_skipEqConst x nn).skipsIff beq_iff_eq, (skipsOn_skipNeqConst x nn).skipsIff bne_iff_ne⟩⟩

/-- Settles O13: the two compare Vx with Vy, and only a checking build looks at the low nibble. -/
theorem skipsCompareRegisters : Obligations.SkipsCompareRegisters := by
  intro x y
  refine ⟨fun n => ?_, fun n => ?_, decodeWord_encode true (i := .skipEqReg x y) rfl,
    decodeWord_encode true (i := .skipNeqReg x y) rfl, fun n hn => ?_, fun s => ⟨?_, ?_⟩⟩
  · rw [decodeWord_wordXYN_five, decodeXY_unchecked]
  · rw [decodeWord_wordXYN_nine, decodeXY_unchecked]
  · rw [decodeWord_wordXYN_five, decodeWord_wordXYN_nine]
    exact ⟨decodeXY_checked_wordXYN (by decide) _ x y hn, decodeXY_checked_wordXYN (by decide) _ x y hn⟩
  · exact (skipsOn_skipEqReg x y).skipsIff beq_iff_eq
  · exact (skipsOn_skipNeqReg x y).skipsIff bne_iff_ne

/-- Settles O14: the key named is the low nibble of Vx, and KeyNotPressSkip negates what KeyPressSkip tests. -/
theorem skipsQueryTheKeypad : Obligations.SkipsQueryTheKeypad := by
  refine fun x => ⟨fun chk => decodeWord_encode chk (i := .keyPressSkip x) rfl,
    fun chk => decodeWord_encode chk (i := .keyNotPressSkip x) rfl, fun s => ⟨?_, ?_⟩⟩
  · exact (skipsOn_keyPressSkip x).skipsIff (by rw [State.keyDown_keyOf])
  · exact (skipsOn_keyNotPressSkip x).skipsIff (by rw [State.keyDown_keyOf, Bool.not_eq_true'])

end Sys2Proof.Machine
end

section
/-! SUPPORT. Registers and ALU: the loads, the write of a result with its flag, the arithmetic behind each flag, and the
part the build's policy for VF plays (43_register_alu.md, R460 to R471). -/

namespace Sys2Proof.Machine

open Sys2Proof.Claims

/-! ### The policy for VF as the destination (R471) -/

/-- The state in a build with another `VF_DEST_POLICY`. -/
def State.withPolicy (p : VfDestPolicy) (s : State) : State := { s with cfg := { s.cfg with vfDestPolicy := p } }

section WithPolicy

variable (p : VfDestPolicy) (s : State)

@[simp] theorem State.withPolicy_reg (x : Reg) : (s.withPolicy p).reg x = s.reg x := rfl
@[simp] theorem State.withPolicy_idx : (s.withPolicy p).idx = s.idx := rfl
@[simp] theorem State.withPolicy_regsUpTo (x : Reg) : (s.withPolicy p).regsUpTo x = s.regsUpTo x := rfl
@[simp] theorem State.withPolicy_slice (base k : Nat) : (s.withPolicy p).slice base k = s.slice base k := rfl

@[simp] theorem State.withPolicy_skipIf (c : Bool) : (s.withPolicy p).skipIf c = (s.skipIf c).withPolicy p := by
  cases c <;> rfl

@[simp] theorem State.withPolicy_advance_store (base : Nat) (bs : List Byte) :
    (s.withPolicy p).advance.store base bs = (s.advance.store base bs).map (State.withPolicy p) := by
  unfold State.store
  split <;> rfl

/-- For a destination other than VF, `WriteRF` does not look at the policy. -/
theorem State.withPolicy_advance_writeRF {x : Reg} (hx : x ≠ VF) (res : Byte) (f : Bool) (seq : Byte) :
    (s.withPolicy p).advance.writeRF x res f seq = (s.advance.writeRF x res f seq).withPolicy p := by
  rw [State.writeRF, State.writeRF, if_neg hx, if_neg hx]
  rfl

end WithPolicy

/-- An instruction that does not write a flag into its own destination commutes with a change of the policy. -/
theorem exec_withPolicy {i : Instr} (hi : flagIntoVF i = false) (p : VfDestPolicy) (s : State) :
    exec i (s.withPolicy p) = mapNext (State.withPolicy p) (exec i s) := by
  cases i with
  | addReg x y | subReg x y | subnReg x y | shiftRight x y | shiftLeft x y =>
    have hx : x ≠ VF := beq_eq_false_iff_ne.mp hi
    exact congrArg Host.Outcome.next (s.withPolicy_advance_writeRF p hx _ _ _)
  | ret =>
    cases hs : s.stack with
    | nil => rw [exec_ret_nil hs, exec_ret_nil (s := s.withPolicy p) hs]; rfl
    | cons w ws => rw [exec_ret_cons hs, exec_ret_cons (s := s.withPolicy p) hs]; rfl
  | call nnn =>
    cases hs : s.stackFull with
    | false => rw [exec_call_room nnn hs, exec_call_room (s := s.withPolicy p) nnn hs]; rfl
    | true => rw [exec_call_full nnn hs, exec_call_full (s := s.withPolicy p) nnn hs]; rfl
  | keyLoad x =>
    cases hk : s.sample.availKey with
    | none => rw [exec_keyLoad_none x hk, exec_keyLoad_none (s := s.withPolicy p) x hk]; rfl
    | some k => rw [exec_keyLoad_some x hk, exec_keyLoad_some (s := s.withPolicy p) x hk]; rfl
  | loadBcd x =>
    simp only [exec, execLoadBcd, State.withPolicy_advance_store, State.withPolicy_idx, State.withPolicy_reg]
    cases s.advance.store s.idx.toNat (bcdDigits (s.reg x)) <;> rfl
  | storeRegisters x =>
    simp only [exec, execStoreRegisters, State.withPolicy_advance_store, State.withPolicy_idx,
      State.withPolicy_regsUpTo]
    cases s.advance.store s.idx.toNat (s.regsUpTo x) <;> rfl
  | readRegisters x =>
    simp only [exec, execReadRegisters, State.withPolicy_slice, State.withPolicy_idx]
    cases s.slice s.idx.toNat (x.val + 1) <;> rfl
  | draw x y k =>
    simp only [exec, execDraw, State.withPolicy_slice, State.withPolicy_idx]
    cases s.slice s.idx.toNat k.val <;> rfl
  | skipEqConst _ _ | skipNeqConst _ _ | skipEqReg _ _ | skipNeqReg _ _ | keyPressSkip _ | keyNotPressSkip _ =>
    exact congrArg Host.Outcome.next (s.withPolicy_skipIf p _)
  | _ => rfl

/-- Settles O22: the step in the other build is the same step, seen in the other build. -/
theorem vfDestPolicyMattersForVfOnly : Obligations.VfDestPolicyMattersForVfOnly := by
  intro i s p hi
  obtain ⟨t, ht, -⟩ := exec_next i s
  refine ⟨t, ht, ?_⟩
  have hcomm := exec_withPolicy hi p s
  rw [ht] at hcomm
  exact hcomm

/-! ### One register written, or a result with its flag (R460 to R471) -/

theorem sameExcept_advance_setReg (s : State) (x : Reg) (b : Byte) : SameExcept [] [x] s (s.advance.setReg x b) := by
  constructor
  case reg => exact fun r hr => s.advance.setReg_reg_other b (List.ne_of_not_mem_cons hr)
  all_goals intros; rfl

theorem sameExcept_advance_writeRF (s : State) (x : Reg) (res : Byte) (f : Bool) (seq : Byte) :
    SameExcept [] [x, VF] s (s.advance.writeRF x res f seq) := by
  have hreg := (WritesOnly.writeRF (s := s) (x := x) (parts := []) (regs := [x, VF]) res f seq (by simp) (by simp)).reg
  obtain ⟨v, hv⟩ := s.advance.writeRF_eq_setV x res f seq
  rw [hv] at hreg ⊢
  constructor
  case reg => exact hreg
  all_goals intros; rfl

@[simp] theorem State.writeRF_pc (s : State) (x : Reg) (res : Byte) (f : Bool) (seq : Byte) :
    (s.writeRF x res f seq).pc = s.pc := by
  obtain ⟨v, hv⟩ := s.writeRF_eq_setV x res f seq
  rw [hv]

section Writes

variable {i : Instr} {s : State} {x : Reg}

theorem loadsRegister_of_exec {b : Byte} (h : exec i s = .next (s.advance.setReg x b)) : LoadsRegister i s x b :=
  ⟨_, h, rfl, State.setReg_reg_same .., sameExcept_advance_setReg ..⟩

theorem writesResultAndFlag_of_exec {res seq : Byte} {f : Bool}
    (h : exec i s = .next (s.advance.writeRF x res f seq)) : WritesResultAndFlag i s x res (flagByte f) seq := by
  have hvf : ∀ p, x = VF → s.cfg.vfDestPolicy = p →
      (s.advance.writeRF x res f seq).reg VF = vfDest p res f seq := by
    rintro p rfl rfl
    exact s.advance.writeRF_reg_vfDest res f seq
  refine ⟨_, h, State.writeRF_pc .., sameExcept_advance_writeRF .., fun hx => ⟨?_, ?_⟩, hvf .flagLast,
    hvf .resultLast, hvf .sequential⟩
  · exact State.writeRF_reg_dest _ _ _ _ hx
  · exact State.writeRF_reg_flag _ _ _ _ hx

end Writes

/-! ### Arithmetic of results and flags (R461, R466 to R470, R472) -/

theorem byte_add_eq_ofNat_mod (a b : Byte) : a + b = BitVec.ofNat 8 ((a.toNat + b.toNat) % 256) :=
  BitVec.eq_of_toNat_eq (by simp)

theorem byte_sub_toNat (a b : Byte) : (a - b).toNat = (a.toNat + 256 - b.toNat) % 256 := by
  rw [BitVec.toNat_sub]
  omega

theorem flagByte_toNat (f : Bool) : (flagByte f).toNat = f.toNat := by
  cases f <;> rfl

section FlagByteDecide

variable {q : Prop} [Decidable q]

theorem flagByte_decide_of (h : q) : flagByte (decide q) = 1#8 := by simp [flagByte, h]

theorem flagByte_decide_of_not (h : ¬ q) : flagByte (decide q) = 0#8 := by simp [flagByte, h]

end FlagByteDecide

theorem flagByte_shiftedOutRight_toNat (a : Byte) : (flagByte (shiftedOutRight a)).toNat = a.toNat % 2 := by
  rw [flagByte_toNat, shiftedOutRight, BitVec.getLsbD, Nat.toNat_testBit, pow_zero, Nat.div_one]

theorem flagByte_shiftedOutLeft_toNat (a : Byte) : (flagByte (shiftedOutLeft a)).toNat = a.toNat / 128 := by
  rw [flagByte_toNat, shiftedOutLeft, BitVec.getLsbD, Nat.toNat_testBit]
  omega

/-- The flag shifted right again, under the sequential policy. -/
theorem flagByte_ushiftRight_one (f : Bool) : flagByte f >>> 1 = 0#8 := by
  cases f <;> rfl

/-- The flag shifted left again, under the sequential policy. -/
theorem flagByte_shiftLeft_one (f : Bool) : flagByte f <<< 1 = BitVec.ofNat 8 (2 * (flagByte f).toNat) := by
  cases f <;> rfl

/-! ### The statements -/

/-- Settles O16: each of the two writes one register with the value it reads. -/
theorem loadsCopyIntoRegister : Obligations.LoadsCopyIntoRegister := fun x y nn =>
  ⟨fun chk => decodeWord_encode chk (i := .loadImm x nn) rfl, fun chk => decodeWord_encode chk (i := .loadReg x y) rfl,
    fun _ => ⟨loadsRegister_of_exec rfl, loadsRegister_of_exec rfl⟩⟩

/-- Settles O17: a byte sum is the sum modulo 256, and the one write is that of Vx. -/
theorem addConstantWritesNoFlag : Obligations.AddConstantWritesNoFlag := by
  refine fun x nn => ⟨fun chk => decodeWord_encode chk (i := .addConst x nn) rfl, fun s => ?_⟩
  rw [← byte_add_eq_ofNat_mod]
  exact loadsRegister_of_exec rfl

/-- Settles O18: each of the three writes one register, with the bitwise operation of two words. -/
theorem bitwiseOperationsWriteNoFlag : Obligations.BitwiseOperationsWriteNoFlag := by
  refine fun x y => ⟨fun chk => ⟨decodeWord_encode chk (i := .orReg x y) rfl,
    decodeWord_encode chk (i := .andReg x y) rfl, decodeWord_encode chk (i := .xorReg x y) rfl⟩, fun s => ?_⟩
  exact ⟨s.reg x ||| s.reg y, s.reg x &&& s.reg y, s.reg x ^^^ s.reg y, loadsRegister_of_exec rfl,
    loadsRegister_of_exec rfl, loadsRegister_of_exec rfl,
    fun _ _ => ⟨BitVec.getLsbD_or, BitVec.getLsbD_and, BitVec.getLsbD_xor⟩⟩

/-- Settles O19: the flag is the test whether the exact sum exceeds 255. -/
theorem addSetsCarry : Obligations.AddSetsCarry := by
  refine fun x y => ⟨fun chk => decodeWord_encode chk (i := .addReg x y) rfl, fun s => ?_⟩
  exact ⟨_, _, writesResultAndFlag_of_exec rfl, BitVec.toNat_add .., flagByte_decide_of,
    fun h => flagByte_decide_of_not (Nat.not_lt.mpr h)⟩

/-- What Sub and Subn share: an instruction that writes the difference `a - b` with its no-borrow. -/
theorem subtracts_of_exec {i : Instr} {s : State} {x : Reg} {a b : Byte}
    (h : exec i s = .next (s.advance.writeRF x (a - b) (noBorrow a b) (flagByte (noBorrow a b)))) :
    ∃ res f, WritesResultAndFlag i s x res f f ∧ res.toNat = (a.toNat + 256 - b.toNat) % 256 ∧
      (b.toNat ≤ a.toNat → f = 1#8) ∧ (a.toNat < b.toNat → f = 0#8) :=
  ⟨_, _, writesResultAndFlag_of_exec h, byte_sub_toNat a b, flagByte_decide_of,
    fun hlt => flagByte_decide_of_not (Nat.not_le.mpr hlt)⟩

/-- Settles O20: the two are one subtraction with the operands exchanged. -/
theorem subtractsSetNoBorrow : Obligations.SubtractsSetNoBorrow := fun x y =>
  ⟨fun chk => decodeWord_encode chk (i := .subReg x y) rfl, fun chk => decodeWord_encode chk (i := .subnReg x y) rfl,
    fun _ => ⟨subtracts_of_exec rfl, subtracts_of_exec rfl⟩⟩

/-- Settles O21: the flag is the bit at the end the shift moves out of, and the sequential policy shifts it again. -/
theorem shiftsSetTheBitShiftedOut : Obligations.ShiftsSetTheBitShiftedOut := by
  refine fun x y => ⟨fun chk => decodeWord_encode chk (i := .shiftRight x y) rfl,
    fun chk => decodeWord_encode chk (i := .shiftLeft x y) rfl, fun s => ⟨?_, ?_⟩⟩
  · have hw : WritesResultAndFlag (.shiftRight x y) s x _ _ _ := writesResultAndFlag_of_exec rfl
    rw [flagByte_ushiftRight_one] at hw
    refine ⟨_, _, hw, ?_, flagByte_shiftedOutRight_toNat _⟩
    rw [BitVec.toNat_ushiftRight, Nat.shiftRight_one]
  · have hw : WritesResultAndFlag (.shiftLeft x y) s x _ _ _ := writesResultAndFlag_of_exec rfl
    rw [flagByte_shiftLeft_one] at hw
    refine ⟨_, _, hw, ?_, flagByte_shiftedOutLeft_toNat _⟩
    rw [BitVec.toNat_shiftLeft, Nat.shiftLeft_eq, pow_one, Nat.mul_comm]

end Sys2Proof.Machine
end

section
/-! SUPPORT. The index register, and the three instructions that reach memory through it: the values loaded into I, the
bytes stored and read, and the one range check that decides between an access and its fault (44_index_memory.md, R500
to R505). -/

namespace Sys2Proof.Machine

open Sys2Proof.Claims

/-! ### The index register, whose three writers have no branch (R500, R501, R502) -/

theorem exec_loadIndex (nnn : Addr) (s : State) :
    exec (.loadIndex nnn) s = .next (s.advance.setIdx (zextAddr nnn)) := rfl

theorem exec_addIndex (x : Reg) (s : State) :
    exec (.addIndex x) s = .next (s.advance.setIdx (s.idx + zextByte (s.reg x))) := rfl

theorem exec_locateSprite (x : Reg) (s : State) :
    exec (.locateSprite x) s = .next (s.advance.setIdx (spriteAddr s.cfg (s.reg x))) := rfl

theorem word_add_zextByte_toNat (w : Word) (b : Byte) : (w + zextByte b).toNat = (w.toNat + b.toNat) % 65536 := by
  rw [BitVec.toNat_add, zextByte_toNat]

/-! ### Glyph addresses (R502) -/

/-- The largest glyph address, 0x50 + 5 * 255, fits in 16 bits. -/
theorem glyphAddr_toNat (d : Byte) : (glyphAddr d).toNat = 0x50 + 5 * d.toNat :=
  (BitVec.toNat_ofNat ..).trans (Nat.mod_eq_of_lt (by unfold fontBase; omega))

theorem spriteAddr_of_le (cfg : Config) {d : Byte} (h : d.toNat ≤ 15) : spriteAddr cfg d = glyphAddr d :=
  if_pos h

theorem spriteAddr_of_gt (cfg : Config) {d : Byte} (h : 15 < d.toNat) : spriteAddr cfg d = fontAddrHigh cfg d :=
  if_neg (Nat.not_le.mpr h)

/-- A build that lists no exceptions keeps the default for every value. -/
theorem fontAddrHigh_default {cfg : Config} (h : cfg.fontAddrHigh = []) (d : Byte) :
    fontAddrHigh cfg d = glyphAddr d := by
  rw [fontAddrHigh, h]; rfl

theorem spriteAddr_default {cfg : Config} (h : cfg.fontAddrHigh = []) (d : Byte) : spriteAddr cfg d = glyphAddr d := by
  rw [spriteAddr, fontAddrHigh_default h, ite_self]

/-! ### Decimal digits (R503) -/

/-- A quotient or remainder that fits in a byte is stored as it is. -/
theorem byte_ofNat_toNat {n : Nat} (h : n < 256) : (BitVec.ofNat 8 n).toNat = n :=
  (BitVec.toNat_ofNat ..).trans (Nat.mod_eq_of_lt h)

/-! ### A block of bytes in memory (R202) -/

section SetBytes

variable {m : Memory} {a : Nat} {bs : List Byte}

theorem Memory.byte_setBytes_inside (hm : Memory.wf m = true) (ha : a + bs.length ≤ memSize) {k : Nat}
    (hk : k < bs.length) : Memory.byte (Memory.setBytes m a bs) (a + k) = bs[k] := by
  rw [Memory.byte_setBytes bs _ hm ha, if_pos (Nat.le_add_right ..), Nat.add_sub_cancel_left,
    List.getD_eq_getElem _ _ hk]

theorem Memory.byte_setBytes_outside (hm : Memory.wf m = true) (ha : a + bs.length ≤ memSize) {c : Nat}
    (hc : c < a ∨ a + bs.length ≤ c) : Memory.byte (Memory.setBytes m a bs) c = Memory.byte m c := by
  rw [Memory.byte_setBytes bs c hm ha]
  obtain hlow | hhigh := hc
  · exact if_neg (Nat.not_le.mpr hlow)
  · rw [List.getD_eq_default _ _ (by omega), ite_self]

end SetBytes

/-! ### The range check of the three accesses: one equation for each side (R205, R503 to R505) -/

section RangeCheck

variable {s : State} {x : Reg}

theorem exec_loadBcd_of_le (h : s.idx.toNat + 2 ≤ 4095) :
    exec (.loadBcd x) s =
      .next { s.advance with mem := Memory.setBytes s.mem s.idx.toNat (bcdDigits (s.reg x)) } := by
  obtain ⟨hgt, -⟩ | ⟨-, hnext⟩ := execLoadBcd_cases x s
  · unfold memSize at hgt; omega
  · exact hnext

theorem exec_loadBcd_of_gt (h : 4095 < s.idx.toNat + 2) : FaultsInExecute .boundsViolation (.loadBcd x) s := by
  obtain ⟨-, htrap⟩ | ⟨hle, -⟩ := execLoadBcd_cases x s
  · exact htrap
  · unfold memSize at hle; omega

theorem exec_storeRegisters_of_gt (h : 4095 < s.idx.toNat + x.val) :
    FaultsInExecute .boundsViolation (.storeRegisters x) s := by
  obtain ⟨-, htrap⟩ | ⟨hle, -⟩ := execStoreRegisters_cases x s
  · exact htrap
  · unfold memSize at hle; omega

theorem exec_readRegisters_of_le (h : s.idx.toNat + x.val ≤ 4095) :
    ∃ bs, s.slice s.idx.toNat (x.val + 1) = some bs ∧ exec (.readRegisters x) s = .next (s.advance.setRegs bs) := by
  obtain ⟨hgt, -⟩ | ⟨bs, -, hslice, hnext⟩ := execReadRegisters_cases x s
  · unfold memSize at hgt; omega
  · exact ⟨bs, hslice, hnext⟩

theorem exec_readRegisters_of_gt (h : 4095 < s.idx.toNat + x.val) :
    FaultsInExecute .boundsViolation (.readRegisters x) s := by
  obtain ⟨-, htrap⟩ | ⟨bs, hle, -⟩ := execReadRegisters_cases x s
  · exact htrap
  · unfold memSize at hle; omega

end RangeCheck

/-! ### The statements -/

/-- Settles O23: each of the two is one write of I, the sum modulo 65536 as every sum of words is. -/
theorem indexLoadsAndAdds : Obligations.IndexLoadsAndAdds := by
  refine fun nnn x => ⟨fun chk => decodeWord_encode chk (i := .loadIndex nnn) rfl,
    fun chk => decodeWord_encode chk (i := .addIndex x) rfl, fun s => ⟨?_, ?_⟩⟩
  · have hload := exec_loadIndex nnn s
    exact ⟨_, hload, rfl, zextAddr_toNat nnn, exec_sameExcept hload rfl⟩
  · have hadd := exec_addIndex x s
    exact ⟨_, hadd, rfl, word_add_zextByte_toNat s.idx (s.reg x), exec_sameExcept hadd rfl⟩

/-- Settles O24: up to 15 the glyph, above it the build's function, whose default is the glyph again. -/
theorem locateSpritePointsAtTheGlyph : Obligations.LocateSpritePointsAtTheGlyph := by
  refine fun x => ⟨fun chk => decodeWord_encode chk (i := .locateSprite x) rfl, fun s => ?_⟩
  have hlocate := exec_locateSprite x s
  refine ⟨_, hlocate, rfl, exec_sameExcept hlocate rfl, fun hdigit => ?_, spriteAddr_of_gt s.cfg, fun hdefault => ?_⟩
  · rw [State.setIdx_idx, spriteAddr_of_le s.cfg hdigit, glyphAddr_toNat]
  · rw [State.setIdx_idx, spriteAddr_default hdefault, glyphAddr_toNat]

/-- Settles O25: the block stored is the three digits, each of which fits in a byte. -/
theorem loadBcdStoresTheDigits : Obligations.LoadBcdStoresTheDigits := by
  refine fun x => ⟨fun chk => decodeWord_encode chk (i := .loadBcd x) rfl,
    fun s hs => ⟨fun hin => ?_, exec_loadBcd_of_gt⟩⟩
  have hbcd := exec_loadBcd_of_le (x := x) hin
  have hfit : s.idx.toNat + (bcdDigits (s.reg x)).length ≤ memSize := by
    unfold memSize; exact Nat.succ_le_succ hin
  have hdigit (k : Nat) (hk : k < 3) := Memory.byte_setBytes_inside hs hfit (k := k) hk
  refine ⟨_, hbcd, rfl, exec_sameExcept hbcd rfl, ?_, ?_, ?_, fun a ha => Memory.byte_setBytes_outside hs hfit ha⟩
  · exact (congrArg _ (hdigit 0 (by decide))).trans (byte_ofNat_toNat (by omega))
  · exact (congrArg _ (hdigit 1 (by decide))).trans (byte_ofNat_toNat (by omega))
  · exact (congrArg _ (hdigit 2 (by decide))).trans (byte_ofNat_toNat (by omega))

/-- Settles O26: an address below I or above I + X is none that the block reaches. -/
theorem storeRegistersCopiesToMemory : Obligations.StoreRegistersCopiesToMemory := by
  refine fun x => ⟨fun chk => decodeWord_encode chk (i := .storeRegisters x) rfl,
    fun s hs => ⟨fun hin => ?_, exec_storeRegisters_of_gt⟩⟩
  have hstore := exec_storeRegisters_of_le hin
  refine ⟨_, hstore, rfl, exec_sameExcept hstore rfl, fun k hk => byte_setBytes_regsUpTo_stored hs hin hk rfl,
    fun a ha => byte_setBytes_regsUpTo_other hs hin fun k hk => ?_⟩
  have := Fin.le_def.mp hk
  omega

/-- Settles O27: register k takes byte k of the range read, and the frame is the registers R102 lists as written. -/
theorem readRegistersCopiesFromMemory : Obligations.ReadRegistersCopiesFromMemory := by
  refine fun x => ⟨fun chk => decodeWord_encode chk (i := .readRegisters x) rfl,
    fun s => ⟨fun hin => ?_, exec_readRegisters_of_gt⟩⟩
  obtain ⟨bs, hslice, hread⟩ := exec_readRegisters_of_le hin
  refine ⟨_, hread, rfl, fun k hk => ?_, exec_sameExcept hread rfl⟩
  rw [State.setRegs_reg, State.slice_getD hslice (Nat.lt_succ_of_le hk)]

end Sys2Proof.Machine
end

section
/-! SUPPORT. The display: a clear, the pixels a sprite covers as the statements name them, and the state after a drawing
(45_display.md, R530 to R534). -/

namespace Sys2Proof.Machine

open Sys2Proof.Claims

/-! ### The primitives (R530, R531) -/

@[simp] theorem Disp.get_mod (d : Disp) (x y : Nat) : d.get (x % 64) (y % 32) = d.get x y := by
  simp only [Disp.get, Nat.mod_mod]

/-- A `DispSet` of a 0 bit changes nothing and reports nothing. -/
theorem dispSet_false (d : Disp) (x y : Nat) : dispSet d x y false = (d, false) := by
  have hdisp : (dispSet d x y false).1 = d := Disp.ext_get fun px _ py _ => by
    rw [Disp.get_dispSet, Bool.false_and, Bool.false_and, Bool.xor_false]
  have hhit : (dispSet d x y false).2 = false := by rw [dispSet_collides, Bool.and_false]
  exact Prod.ext hdisp hhit

/-- Settles O29: the clauses on `DispSet` are what its one pixel equation says at the pixel named and at any other. -/
theorem displayPrimitives : Obligations.DisplayPrimitives := by
  refine ⟨fun d x y bit => ⟨?_, ?_, fun px hx py hy hne => ?_, dispSet_false d x y⟩,
    fun px _ py _ => Disp.get_dispClear px py⟩
  · rw [dispSet_collides, Disp.get_mod, Bool.and_eq_true]
  · simp [Disp.get_dispSet]
  · rw [← Nat.mod_eq_of_lt hx, ← Nat.mod_eq_of_lt hy] at hne
    have hother : ¬ (px % 64 = x % 64 ∧ py % 32 = y % 32) := by omega
    rw [Disp.get_dispSet, Bool.and_assoc, ← Bool.decide_and, decide_eq_false hother, Bool.and_false, Bool.xor_false]

/-- Settles O30: Clear is the advance of PC and one write of the display. -/
theorem clearZeroesTheDisplay : Obligations.ClearZeroesTheDisplay := by
  refine ⟨fun chk => decodeWord_encode chk (i := .clear) rfl, fun s => ?_⟩
  have hclear : exec .clear s = .next (s.advance.setDisp dispClear) := rfl
  exact ⟨_, hclear, rfl, exec_sameExcept hclear rfl, fun px _ py _ => Disp.get_dispClear px py⟩

/-! ### The pixels a sprite covers (R534) -/

/-- A sprite hits a lit pixel exactly if some pixel of the display that it covers is lit. -/
theorem spriteHits_iff_spriteCovers (x0 y : Nat) (rows : List Byte) (d : Disp) : spriteHits x0 y rows d = true ↔
    ∃ px < 64, ∃ py < 32, spriteCovers x0 y rows px py = true ∧ d.get px py = true := by
  simp only [spriteHits_iff, spriteCovers_iff]
  constructor
  · rintro ⟨r, hr, c, hc, hbit, hlit⟩
    exact ⟨(x0 + c) % 64, by omega, (y + r) % 32, by omega, ⟨r, hr, c, hc, hbit, by simp⟩, by rwa [Disp.get_mod]⟩
  · rintro ⟨px, -, py, -, ⟨r, hr, c, hc, hbit, hx, hy⟩, hlit⟩
    exact ⟨r, hr, c, hc, hbit, by rwa [← Disp.get_mod, ← hx, ← hy, Disp.get_mod]⟩

theorem covers_lt {s : State} {x y : Reg} {n : Count} {px py : Nat} (h : Covers s x y n px py) : px < 64 ∧ py < 32 := by
  obtain ⟨r, -, c, -, -, rfl, rfl⟩ := h
  omega

section Rows

variable {s : State} {n : Count} {rows : List Byte} (hrows : s.slice s.idx.toNat n.val = some rows)

include hrows

theorem covers_iff_spriteCovers (x y : Reg) {px py : Nat} (hx : px < 64) (hy : py < 32) :
    Covers s x y n px py ↔ spriteCovers (s.reg x).toNat (s.reg y).toNat rows px py = true := by
  rw [spriteCovers_iff, State.slice_length hrows, Nat.mod_eq_of_lt hx, Nat.mod_eq_of_lt hy]
  refine exists_congr fun r => and_congr_right fun hr => ?_
  rw [State.slice_getD hrows hr]

theorem hitsLitPixel_iff_spriteHits (x y : Reg) :
    HitsLitPixel s x y n ↔ spriteHits (s.reg x).toNat (s.reg y).toNat rows s.disp = true := by
  rw [spriteHits_iff_spriteCovers]
  refine exists_congr fun px => and_congr_right fun hx => exists_congr fun py => and_congr_right fun hy => ?_
  rw [covers_iff_spriteCovers hrows x y hx hy]

/-- Some pixel is covered exactly if some pixel of the display is. -/
theorem exists_covers_iff (x y : Reg) : (∃ px py, Covers s x y n px py) ↔
    ∃ px < 64, ∃ py < 32, spriteCovers (s.reg x).toNat (s.reg y).toNat rows px py = true := by
  constructor
  · rintro ⟨px, py, hcov⟩
    obtain ⟨hx, hy⟩ := covers_lt hcov
    exact ⟨px, hx, py, hy, (covers_iff_spriteCovers hrows x y hx hy).mp hcov⟩
  · rintro ⟨px, hx, py, hy, hcov⟩
    exact ⟨px, py, (covers_iff_spriteCovers hrows x y hx hy).mpr hcov⟩

/-- A sprite has at most 15 rows, fewer than the display, so no row of it meets another (R302). -/
theorem sprite_length_le : rows.length ≤ 32 := by
  rw [State.slice_length hrows]
  exact n.isLt.le.trans (by decide)

end Rows

theorem slice_sprite_eq_none {s : State} {n : Count} :
    s.slice s.idx.toNat n.val = none ↔ ¬ SpriteInMemory s n := by
  rw [State.slice_eq_none]
  unfold SpriteInMemory memSize
  omega

theorem exists_slice_sprite {s : State} {n : Count} (h : SpriteInMemory s n) :
    ∃ rows, s.slice s.idx.toNat n.val = some rows :=
  Option.ne_none_iff_exists'.mp (mt slice_sprite_eq_none.mp (not_not_intro h))

/-! ### The state after a drawing (R534) -/

/-- The state after a sprite of these rows has been drawn at (Vx, Vy). -/
def State.drawn (s : State) (x y : Reg) (rows : List Byte) : State :=
  (s.advance.setDisp (drawRows (s.reg x).toNat (s.reg y).toNat rows (s.disp, false)).1).setReg VF
    (flagByte (drawRows (s.reg x).toNat (s.reg y).toNat rows (s.disp, false)).2)

theorem exec_draw_of_slice (x y : Reg) {n : Count} {s : State} {rows : List Byte}
    (hrows : s.slice s.idx.toNat n.val = some rows) : exec (.draw x y n) s = .next (s.drawn x y rows) := by
  rw [exec, execDraw, hrows]
  rfl

theorem exec_draw_outside (x y : Reg) {n : Count} {s : State} (h : ¬ SpriteInMemory s n) :
    FaultsInExecute .boundsViolation (.draw x y n) s := by
  rw [FaultsInExecute, exec, execDraw, slice_sprite_eq_none.mpr h]
  rfl

section Drawn

variable (s : State) (x y : Reg) {rows : List Byte}

@[simp] theorem State.drawn_idx : (s.drawn x y rows).idx = s.idx := rfl
@[simp] theorem State.drawn_slice (base k : Nat) : (s.drawn x y rows).slice base k = s.slice base k := rfl

theorem State.drawn_reg_other {r : Reg} (hr : r ≠ VF) : (s.drawn x y rows).reg r = s.reg r :=
  State.setReg_reg_other _ _ hr

variable (hlen : rows.length ≤ 32)

include hlen

theorem State.drawn_disp_get (px py : Nat) : (s.drawn x y rows).disp.get px py =
    (s.disp.get px py ^^ spriteCovers (s.reg x).toNat (s.reg y).toNat rows px py) :=
  (drawRows_spec _ rows _ (s.disp, false) hlen).1 px py

theorem State.drawn_reg_VF : (s.drawn x y rows).reg VF =
    flagByte (spriteHits (s.reg x).toNat (s.reg y).toNat rows s.disp) := by
  rw [State.drawn, State.setReg_reg_same, (drawRows_spec _ rows _ (s.disp, false) hlen).2, Bool.false_or]

end Drawn

/-- What a flag says of the proposition it decides (R472). -/
theorem flagByte_of_iff {f : Bool} {p : Prop} (h : p ↔ f = true) :
    (p → flagByte f = 1#8) ∧ (¬ p → flagByte f = 0#8) :=
  ⟨fun hp => congrArg flagByte (h.mp hp), fun hp => congrArg flagByte (Bool.eq_false_iff.mpr (mt h.mpr hp))⟩

/-- Settles O31: the sprite is the range read, and each pixel takes the XOR with whether the sprite covers it. -/
theorem drawXorsTheSprite : Obligations.DrawXorsTheSprite := by
  refine fun x y n => ⟨fun chk => decodeWord_encode chk (i := .draw x y n) rfl,
    fun s => ⟨fun hin => ?_, exec_draw_outside x y⟩⟩
  obtain ⟨rows, hrows⟩ := exists_slice_sprite hin
  have hlen := sprite_length_le hrows
  have hdraw := exec_draw_of_slice x y hrows
  have hvf := flagByte_of_iff (hitsLitPixel_iff_spriteHits hrows x y)
  rw [← s.drawn_reg_VF x y hlen] at hvf
  refine ⟨_, hdraw, rfl, exec_sameExcept hdraw rfl, fun px hx py hy hcov => ?_, fun px hx py hy hcov => ?_, hvf⟩
  · rw [covers_iff_spriteCovers hrows x y hx hy] at hcov
    rw [s.drawn_disp_get x y hlen, hcov, Bool.xor_true]
  · rw [covers_iff_spriteCovers hrows x y hx hy, Bool.not_eq_true] at hcov
    rw [s.drawn_disp_get x y hlen, hcov, Bool.xor_false]

/-! ### Two drawings of one sprite (R534, source example E6) -/

/-- Where Vx and Vy survive the first drawing, the second one toggles the same pixels. -/
theorem State.drawn_drawn_disp (s : State) {x y : Reg} (hx : x ≠ VF) (hy : y ≠ VF) {rows : List Byte}
    (hlen : rows.length ≤ 32) : ((s.drawn x y rows).drawn x y rows).disp = s.disp := by
  refine Disp.ext_get fun px _ py _ => ?_
  rw [State.drawn_disp_get _ x y hlen, State.drawn_disp_get _ x y hlen, s.drawn_reg_other x y hx,
    s.drawn_reg_other x y hy, Bool.xor_assoc, Bool.xor_self, Bool.xor_false]

/-- Drawn on a clear display, a sprite is exactly its own lit pixels, so that a second one hits whatever it covers. -/
theorem spriteHits_drawn_of_clear {s : State} (x y : Reg) {rows : List Byte} (hlen : rows.length ≤ 32)
    (hclear : ∀ px < 64, ∀ py < 32, s.disp.get px py = false) :
    spriteHits (s.reg x).toNat (s.reg y).toNat rows (s.drawn x y rows).disp = true ↔
      ∃ px < 64, ∃ py < 32, spriteCovers (s.reg x).toNat (s.reg y).toNat rows px py = true := by
  rw [spriteHits_iff_spriteCovers]
  refine exists_congr fun px => and_congr_right fun hx => exists_congr fun py => and_congr_right fun hy => ?_
  rw [s.drawn_disp_get x y hlen, hclear px hx py hy, Bool.false_xor, and_self]

theorem spriteHits_of_clear (x0 y : Nat) (rows : List Byte) {d : Disp}
    (hclear : ∀ px < 64, ∀ py < 32, d.get px py = false) : spriteHits x0 y rows d = false := by
  rw [Bool.eq_false_iff, ne_eq, spriteHits_iff_spriteCovers]
  rintro ⟨px, hx, py, hy, -, hlit⟩
  exact Bool.false_ne_true ((hclear px hx py hy).symm.trans hlit)

/-- Settles O32: the first draw moves neither the sprite nor its place, so the two XORs cancel. -/
theorem drawingTwiceErases : Obligations.DrawingTwiceErases := by
  intro x y n s hx hy hin
  obtain ⟨rows, hrows⟩ := exists_slice_sprite hin
  have hrows' : (s.drawn x y rows).slice (s.drawn x y rows).idx.toNat n.val = some rows := by
    rw [State.drawn_idx, State.drawn_slice, hrows]
  have hlen := sprite_length_le hrows
  refine ⟨_, _, exec_draw_of_slice x y hrows, exec_draw_of_slice x y hrows', s.drawn_drawn_disp hx hy hlen,
    fun hclear => ⟨?_, ?_⟩⟩
  · rw [s.drawn_reg_VF x y hlen, spriteHits_of_clear _ _ _ hclear]
    rfl
  · rw [State.drawn_reg_VF _ x y hlen, s.drawn_reg_other x y hx, s.drawn_reg_other x y hy]
    exact flagByte_of_iff ((exists_covers_iff hrows x y).trans (spriteHits_drawn_of_clear x y hlen hclear).symm)

end Sys2Proof.Machine
end

section
/-! SUPPORT. Timer transfers, key load and random: what each writes, and the whole step of a waiting key load
(46_timer_key_random.md, R560 to R565). -/

namespace Sys2Proof.Machine

open Sys2Proof.Claims

/-! ### The instructions without a branch (R561, R562, R564) -/

theorem exec_delayTimerLoadInto (x : Reg) (s : State) :
    exec (.delayTimerLoadInto x) s = .next (s.advance.setDt (s.reg x)) := rfl

theorem exec_soundLoad (x : Reg) (s : State) : exec (.soundLoad x) s = .next (s.advance.setSt (s.reg x)) := rfl

theorem exec_random (x : Reg) (nn : Byte) (s : State) :
    exec (.random x nn) s = .next (s.advance.nextRand.setReg x (s.randByte &&& nn)) := rfl

/-! ### A waiting key load: the empty frame and the whole step (R405 to R408, R563) -/

theorem sameExcept_refl (s : State) : SameExcept [] [] s s := by
  constructor <;> intros <;> rfl

/-- A key load without a key does nothing in part 4, so a step that presents its frame only delivers it, lets the timers
fall and samples `running`. -/
theorem step_keyLoad_presented {s : State} {w : Word} {x : Reg} (h : AtInstruction s w (.keyLoad x))
    (hkey : s.sample.availKey = none) (hp : s.sample.presentOk = true) :
    step s = .next
      { s.present.tick.dropSample with status := if s.sample.running then .running else .stopped } := by
  have hrun : s.clearFrame.status = .running := h.1
  rw [step_of_exec h (exec_keyLoad_none x hkey), State.afterExec_of_running _ _ hrun,
    State.finish_of_presented _ _ hrun hp]
  rfl

/-! ### The statements -/

/-- Settles O33: each of the three is one write, of the register or of the timer. -/
theorem timerTransfers : Obligations.TimerTransfers := by
  refine fun x => ⟨fun chk => ⟨decodeWord_encode chk (i := .delayTimerLoadFrom x) rfl,
    decodeWord_encode chk (i := .delayTimerLoadInto x) rfl, decodeWord_encode chk (i := .soundLoad x) rfl⟩,
    fun s => ⟨loadsRegister_of_exec rfl, ?_, ?_⟩⟩
  · have hload := exec_delayTimerLoadInto x s
    exact ⟨_, hload, rfl, rfl, exec_sameExcept hload rfl⟩
  · have hload := exec_soundLoad x s
    exact ⟨_, hload, rfl, rfl, exec_sameExcept hload rfl⟩

/-- Settles O35: without a key part 4 gives back the state it got, and with one it writes Vx. -/
theorem keyLoadWaitsOrStores : Obligations.KeyLoadWaitsOrStores := by
  refine fun x => ⟨fun chk => decodeWord_encode chk (i := .keyLoad x) rfl, fun s => ⟨fun hkey => ?_, ?_, ?_⟩⟩
  · exact ⟨s, exec_keyLoad_none x hkey, rfl, sameExcept_refl s⟩
  · intro w h hkey hp
    have ⟨_, hfetch, _⟩ := h
    exact ⟨_, step_keyLoad_presented h hkey hp, rfl, hfetch, rfl, rfl, decrement_toNat s.dt, decrement_toNat s.st, rfl⟩
  · exact fun k hkey => loadsRegister_of_exec (exec_keyLoad_some x hkey)

/-- Settles O37: Vx gets the AND of the drawn byte with the mask, and the draw does not look at the mask. -/
theorem randomMasksTheNextByte : Obligations.RandomMasksTheNextByte := by
  refine fun x nn => ⟨fun chk => decodeWord_encode chk (i := .random x nn) rfl, fun s => ?_⟩
  have hrandom := exec_random x nn s
  refine ⟨_, hrandom, rfl, rfl, fun k _ => ?_, exec_sameExcept hrandom rfl⟩
  rw [State.setReg_reg_same, BitVec.getLsbD_and, State.randByte]

end Sys2Proof.Machine
end

section
/-! SUPPORT. Faults: which of them an instruction can raise, that a fault leaves the rest of the block alone, and the
timer decrementer, which a faulting step does not reach (60_exceptions.md, R600 to R602, R611, R630; R409). -/

namespace Sys2Proof.Machine

open Sys2Proof.Claims

/-! ### How part 4 ends (R403, R404, R409, R600) -/

/-- The faults of part 4: the instructions that can raise one, each with its cause (R600). -/
inductive Raises : Instr → FaultCause → Prop
  | ret : Raises .ret .stackUnderflow
  | call (nnn : Addr) : Raises (.call nnn) .stackOverflow
  | draw (x y : Reg) (n : Count) : Raises (.draw x y n) .boundsViolation
  | loadBcd (x : Reg) : Raises (.loadBcd x) .boundsViolation
  | storeRegisters (x : Reg) : Raises (.storeRegisters x) .boundsViolation
  | readRegisters (x : Reg) : Raises (.readRegisters x) .boundsViolation

/-- The causes left out are those of parts 2 and 5. -/
theorem Raises.cause_ne {i : Instr} {c : FaultCause} (h : Raises i c) :
    c ≠ .decodeFailure ∧ c ≠ .machineCall ∧ c ≠ .presentFailure := by
  cases h <;> decide

/-- How the execution of `i` from `s` can end. -/
inductive ExecEnd (i : Instr) (s : State) : State → Prop
  | completed {t : State} (ht : t.status = s.status) : ExecEnd i s t
  /-- The refusal of part 2, before the PC advance (R402). -/
  | refused {nnn : Addr} (hi : i = .machineCall nnn) : ExecEnd i s (s.raise .machineCall s.pc (some (encode i)))
  | trapped {c : FaultCause} (hc : Raises i c) : ExecEnd i s (s.trap c i)

theorem ExecEnd.skipIf (i : Instr) (s : State) (c : Bool) : ExecEnd i s (s.skipIf c) := by
  rw [State.skipIf_eq_setPc]
  exact .completed rfl

theorem ExecEnd.writeRF (i : Instr) (s : State) (x : Reg) (res : Byte) (f : Bool) (seq : Byte) :
    ExecEnd i s (s.advance.writeRF x res f seq) := by
  obtain ⟨v, hv⟩ := s.advance.writeRF_eq_setV x res f seq
  rw [hv]
  exact .completed rfl

/-- Every instruction ends in one of these ways. -/
theorem exec_next_execEnd (i : Instr) (s : State) : ∃ t, exec i s = .next t ∧ ExecEnd i s t := by
  cases i with
  | ret =>
    obtain ⟨-, h⟩ | ⟨w, ws, -, h⟩ := execRet_cases s
    · exact ⟨_, h, .trapped .ret⟩
    · exact ⟨_, h, .completed rfl⟩
  | machineCall nnn => exact ⟨_, rfl, .refused rfl⟩
  | call nnn =>
    obtain ⟨-, h⟩ | ⟨-, h⟩ := execCall_cases nnn s
    · exact ⟨_, h, .trapped (.call nnn)⟩
    · exact ⟨_, h, .completed rfl⟩
  | draw x y n =>
    obtain ⟨-, -, h⟩ | ⟨rows, -, -, h⟩ := execDraw_cases x y n s
    · exact ⟨_, h, .trapped (.draw x y n)⟩
    · exact ⟨_, h, .completed rfl⟩
  | loadBcd x =>
    obtain ⟨-, h⟩ | ⟨-, h⟩ := execLoadBcd_cases x s
    · exact ⟨_, h, .trapped (.loadBcd x)⟩
    · exact ⟨_, h, .completed rfl⟩
  | storeRegisters x =>
    obtain ⟨-, h⟩ | ⟨-, h⟩ := execStoreRegisters_cases x s
    · exact ⟨_, h, .trapped (.storeRegisters x)⟩
    · exact ⟨_, h, .completed rfl⟩
  | readRegisters x =>
    obtain ⟨-, h⟩ | ⟨bs, -, -, h⟩ := execReadRegisters_cases x s
    · exact ⟨_, h, .trapped (.readRegisters x)⟩
    · exact ⟨_, h, .completed rfl⟩
  | keyLoad x =>
    refine ⟨_, rfl, .completed ?_⟩
    obtain ⟨-, h⟩ | ⟨k, -, h⟩ := s.advance.loadKey_cases x s.sample.availKey <;> rw [h] <;> rfl
  | skipEqConst _ _ | skipNeqConst _ _ | skipEqReg _ _ | skipNeqReg _ _ | keyPressSkip _ | keyNotPressSkip _ =>
    exact ⟨_, rfl, .skipIf ..⟩
  | addReg x y | subReg x y | subnReg x y | shiftRight x y | shiftLeft x y => exact ⟨_, rfl, .writeRF ..⟩
  | _ => exact ⟨_, rfl, .completed rfl⟩

/-- A fault of part 4 from a running state: which instruction, what is in the record, and the whole state. -/
theorem exec_faulted {i : Instr} {s t : State} {r : FaultRecord} (hs : s.status = .running)
    (h : exec i s = .next t) (ht : t.status = .faulted r) :
    ((∃ nnn, i = .machineCall nnn) ∧ r = ⟨.machineCall, s.pc, some (encode i)⟩ ∧ t = s.raise .machineCall s.pc r.word) ∨
      ∃ c, Raises i c ∧ r = ⟨c, s.pc, some (encode i)⟩ ∧ t = s.trap c i := by
  cases of_exec_next (exec_next_execEnd i s) h with
  | completed hsame => simp [hsame, hs] at ht
  | refused hi =>
    obtain rfl := Status.faulted.inj ht
    exact .inl ⟨⟨_, hi⟩, rfl, rfl⟩
  | trapped hc =>
    obtain rfl := Status.faulted.inj ht
    exact .inr ⟨_, hc, rfl, rfl⟩

/-! ### How parts 5 and 6 can end in a fault (R405, R406, R409) -/

/-- Either the fault is the one part 4 has left, or the frame was not presented: the timers and `running` raise none. -/
theorem State.afterExec_faulted {u : State} {a w : Word} {r : FaultRecord}
    (h : (u.afterExec a w).status = .faulted r) :
    (u.status = .faulted r ∧ u.afterExec a w = u) ∨
      (u.status = .running ∧ u.sample.presentOk = false ∧ r = ⟨.presentFailure, a, some w⟩ ∧
        u.afterExec a w = u.present.raise .presentFailure a (some w)) := by
  by_cases hu : u.status = .running
  · rw [State.afterExec_of_running _ _ hu] at h ⊢
    obtain ⟨hp, hend⟩ | ⟨-, -, hend⟩ | ⟨-, -, hend⟩ := u.finish_cases a w <;> rw [hend] at h
    · exact .inr ⟨hu, hp, (Status.faulted.inj h).symm, hend⟩
    · simp [hu] at h
    · simp at h
  · rw [State.afterExec_of_not_running _ _ hu] at h ⊢
    exact .inl ⟨h, rfl⟩

/-! ### The statements -/

/-- Settles O45: by the ends of a step. A fault before the frame is raised on a state in which nothing but PC has
moved, and a failed present on the one the completed instruction has left. -/
theorem faultsArePrecise : Obligations.FaultsArePrecise := by
  intro s t r hstep ht
  obtain ⟨hs, ⟨-, rfl⟩ | ⟨w, hw, ⟨e, -, rfl⟩ | ⟨i, u, hd, hu, rfl⟩⟩⟩ := step_cases hstep
  · obtain rfl := Status.faulted.inj ht
    exact ⟨rfl, fun _ => ⟨s.pc, rfl, fun _ => rfl, fun ⟨hword, _⟩ => absurd rfl hword⟩, nofun⟩
  · obtain rfl := Status.faulted.inj ht
    exact ⟨rfl, fun _ => ⟨s.pc, rfl, fun _ => rfl, fun ⟨_, hcause, _⟩ => absurd rfl hcause⟩, nofun⟩
  · obtain ⟨hfault, hend⟩ | ⟨hrun, hp, rfl, hend⟩ := State.afterExec_faulted ht
    · rw [hend]
      obtain ⟨-, rfl, rfl⟩ | ⟨c, hc, rfl, rfl⟩ := exec_faulted (s := s.clearFrame) hs hu hfault
      · exact ⟨rfl, fun _ => ⟨s.pc, rfl, fun _ => rfl, fun ⟨_, _, hcause⟩ => absurd rfl hcause⟩, nofun⟩
      · obtain ⟨hdecode, hcall, hpresent⟩ := hc.cause_ne
        exact ⟨rfl, fun _ => ⟨s.pc + 2, rfl, by simp [hdecode, hcall], fun _ => rfl⟩, fun h => absurd h hpresent⟩
    · have hsample : u.sample = s.sample := (of_exec_next (exec_next i s.clearFrame) hu).sample
      rw [hend]
      exact ⟨rfl, fun hcause => absurd rfl hcause,
        fun _ => ⟨hsample ▸ hp, w, i, u, ⟨hs, hw, hd⟩, rfl, hu, hrun, rfl⟩⟩

/-- Settles O46: the machine call is refused, and the others are the ones that `Raises` lists. -/
theorem eachInstructionHasItsCause : Obligations.EachInstructionHasItsCause := by
  intro i s t r hs h ht
  obtain ⟨⟨nnn, hi⟩, rfl, -⟩ | ⟨c, hc, rfl, -⟩ := exec_faulted hs h ht
  · exact ⟨rfl, rfl, .inr (.inr (.inl ⟨nnn, hi, rfl⟩))⟩
  · refine ⟨rfl, rfl, ?_⟩
    cases hc <;> simp

/-- Settles O43: the decrement is floored subtraction, and part 6 is reached when the instruction has raised no fault
and the frame is presented. -/
theorem timersFallWithAFloor : Obligations.TimersFallWithAFloor := by
  refine ⟨fun s => ⟨decrement_toNat s.dt, decrement_toNat s.st, rfl⟩, fun s w i h hp => ?_⟩
  obtain ⟨u, hu, -, -, hpresented⟩ := stepRunsTheDecodedInstruction s w i h
  refine ⟨u, hu, fun hrun => ⟨_, hpresented hrun hp, rfl, ?_, ?_⟩⟩
  · exact (decrement_eq_ofNat u.dt).symm
  · exact (decrement_eq_ofNat u.st).symm

end Sys2Proof.Machine
end

section
/-! SUPPORT. The state at reset and at launch, and how the timers of a whole step follow the timer transfers
(70_reset_and_hazards.md, R700 to R702, R711, R712). -/

namespace Sys2Proof.Machine

open Sys2Proof.Claims

/-! ### Whole steps and the timers (R407, R711, R712) -/

/-- A step whose instruction completes and whose frame is presented ends with the registers the instruction has left,
and with its timers one lower. -/
theorem step_presented {s u : State} {w : Word} {i : Instr} (h : AtInstruction s w i)
    (hu : exec i s.clearFrame = .next u) (hrun : u.status = .running) (hp : s.sample.presentOk = true) :
    ∃ t, step s = .next t ∧ (∀ r, t.reg r = u.reg r) ∧ t.dt.toNat = u.dt.toNat - 1 ∧ t.st.toNat = u.st.toNat - 1 := by
  have hsample : u.sample = s.sample := (of_exec_next (exec_next i s.clearFrame) hu).sample
  rw [step_of_exec h hu, State.afterExec_of_running _ _ hrun, State.finish_of_presented _ _ hrun (hsample ▸ hp)]
  exact ⟨_, rfl, fun _ => rfl, decrement_toNat u.dt, decrement_toNat u.st⟩

/-- No instruction stops a running block: `running` is sampled in part 6 only (R408). -/
theorem exec_running_or_faulted {i : Instr} {s u : State} (hs : s.status = .running) (hu : exec i s = .next u) :
    u.status = .running ∨ ∃ r, u.status = .faulted r := by
  cases of_exec_next (exec_next_execEnd i s) hu with
  | completed hsame => exact .inl (hsame.trans hs)
  | refused => exact .inr ⟨_, rfl⟩
  | trapped => exact .inr ⟨_, rfl⟩

/-- A step that ends without a fault has executed its instruction to the end and presented its frame. -/
theorem presented_of_not_faulted {s t : State} {w : Word} {i : Instr} (h : AtInstruction s w i)
    (hstep : step s = .next t) (ht : ∀ r, t.status ≠ .faulted r) :
    s.sample.presentOk = true ∧ ∃ u, exec i s.clearFrame = .next u ∧ u.status = .running := by
  obtain ⟨u, hu, hfault, hlost, -⟩ := stepRunsTheDecodedInstruction s w i h
  obtain hrun | ⟨r, hr⟩ := exec_running_or_faulted (s := s.clearFrame) h.1 hu
  · refine ⟨?_, u, hu, hrun⟩
    by_contra hp
    obtain rfl := Host.Outcome.next.inj (hstep.symm.trans (hlost hrun (Bool.eq_false_iff.mpr hp)))
    exact ht _ rfl
  · obtain rfl := Host.Outcome.next.inj (hstep.symm.trans (hfault (by simp [hr])))
    exact absurd hr (ht r)

theorem exec_delayTimerLoadFrom (x : Reg) (s : State) :
    exec (.delayTimerLoadFrom x) s = .next (s.advance.setReg x s.dt) := rfl

/-- Settles O34: each of the three completes in part 4, and the decrement of part 6 follows it. -/
theorem transferThenDecrement : Obligations.TransferThenDecrement := by
  refine fun s w x hp => ⟨fun h => ?_, fun h => ?_, fun h => ?_⟩
  · obtain ⟨t, ht, hreg, hdt, -⟩ := step_presented h (exec_delayTimerLoadFrom x _) h.1 hp
    exact ⟨t, ht, (hreg x).trans (State.setReg_reg_same ..), hdt⟩
  · obtain ⟨t, ht, -, htimers⟩ := step_presented h (exec_delayTimerLoadInto x _) h.1 hp
    exact ⟨t, ht, htimers⟩
  · obtain ⟨t, ht, -, hdt, hst⟩ := step_presented h (exec_soundLoad x _) h.1 hp
    exact ⟨t, ht, hst, hdt⟩

/-- Settles O44: part 4 writes a timer by its load only, and the step has reached the decrement of part 6. -/
theorem timersCountSteps : Obligations.TimersCountSteps := by
  intro s t w i h hstep ht
  obtain ⟨hp, u, hu, hrun⟩ := presented_of_not_faulted h hstep ht
  obtain ⟨t', ht', -, hdt, hst⟩ := step_presented h hu hrun hp
  obtain rfl : t' = t := Host.Outcome.next.inj (ht'.symm.trans hstep)
  have hw := exec_writesOnly hu
  refine ⟨fun hi => ?_, fun hi => ?_⟩
  · rw [hdt, hw.dt fun hmem => not_exists.mpr hi (dt_mem_writesParts.mp hmem)]
    rfl
  · rw [hst, hw.st fun hmem => not_exists.mpr hi (st_mem_writesParts.mp hmem)]
    rfl

/-! ### The reset values (R700) -/

@[simp] theorem State.reset_reg (r : Reg) : State.reset.reg r = 0#8 :=
  Vector.getElem_replicate ..

@[simp] theorem State.reset_disp_get (px py : Nat) : State.reset.disp.get px py = false :=
  Disp.get_dispClear px py

/-- The font table ends at 0x9F, so the bytes on either side of it are 0. -/
theorem unlisted_of_outside_font {a : Nat} (h : ¬ (0x50 ≤ a ∧ a < 0xA0)) : unlisted a = 0#8 := by
  unfold unlisted fontBase
  split
  · exact List.getD_eq_default _ _ (show 80 ≤ a - 0x50 by omega)
  · rfl

/-- Where PC is at the reset vector and the call stack is empty, the invariant is about memory only, in any build. -/
theorem State.Inv.of_pc_reset {s : State} (hmem : Memory.wf s.mem = true) (hpc : s.pc = resetPc)
    (hstack : s.stack = []) : s.Inv where
  memory := hmem
  pc := ⟨by rw [hpc]; decide, by simp [hstack]⟩
  stack := by simp [State.StackBounded, hstack]

/-- Settles O48: no byte is listed, PC is the reset vector, and the call stack is empty. -/
theorem resetMeetsTheInvariant : Obligations.ResetMeetsTheInvariant :=
  .of_pc_reset rfl rfl rfl

/-- Settles O52: at reset memory lists nothing, so every byte reads as unlisted. -/
theorem resetState : Obligations.ResetState := by
  refine ⟨State.reset_reg, rfl, rfl, rfl, rfl, rfl, rfl, rfl, fun px _ py _ => State.reset_disp_get px py, fun a => ?_⟩
  change unlisted a = _
  split
  · next h => exact if_pos h.1
  · next h => exact unlisted_of_outside_font h

/-! ### The memory of a launch (R700, R701) -/

/-- Memory as a launch fills it: the font at 0x50, then the image at 0x200. -/
def launchMem (font : Vector Byte 80) (rom : List Byte) : Memory :=
  Memory.setBytes (Memory.setBytes [] fontBase font.toList) romBase rom

theorem launch_of_le (cfg : Config) (font : Vector Byte 80) {rom : List Byte} (inputs : List Inputs)
    (h : rom.length ≤ romMax) : launch cfg font rom inputs =
      .next { State.reset with cfg := cfg, inputs := inputs, mem := launchMem font rom } :=
  if_neg (Nat.not_lt.mpr h)

theorem launch_of_gt (cfg : Config) (font : Vector Byte 80) {rom : List Byte} (inputs : List Inputs)
    (h : romMax < rom.length) : launch cfg font rom inputs = .refused .oversizedRom :=
  if_pos h

section LaunchMem

variable (font : Vector Byte 80)

theorem font_in_memory : fontBase + font.toList.length ≤ memSize := by
  rw [Vector.length_toList]
  decide

theorem font_wf : Memory.wf (Memory.setBytes [] fontBase font.toList) = true :=
  Memory.setBytes_wf _ rfl (font_in_memory font)

/-- The font of the launch covers the default one, so no byte of the latter is left. -/
theorem byte_font (a : Nat) : Memory.byte (Memory.setBytes [] fontBase font.toList) a =
    if 0x50 ≤ a ∧ a < 0xA0 then font.toList.getD (a - 0x50) 0#8 else 0#8 := by
  split
  · next h =>
    obtain ⟨k, rfl⟩ := Nat.exists_eq_add_of_le h.1
    have hk : k < font.toList.length := by rw [Vector.length_toList]; omega
    rw [Nat.add_sub_cancel_left, List.getD_eq_getElem _ _ hk]
    exact Memory.byte_setBytes_inside rfl (font_in_memory font) hk
  · next h =>
    rw [Memory.byte_setBytes_outside rfl (font_in_memory font)]
    · exact unlisted_of_outside_font h
    · rw [Vector.length_toList, fontBase]
      omega

variable {rom : List Byte} (hrom : rom.length ≤ romMax)

include hrom

theorem rom_in_memory : romBase + rom.length ≤ memSize :=
  Nat.add_le_of_le_sub' (by decide) hrom

theorem launchMem_wf : Memory.wf (launchMem font rom) = true :=
  Memory.setBytes_wf _ (font_wf font) (rom_in_memory hrom)

/-- The image region begins above the font, where memory was 0. -/
theorem byte_launchMem (a : Nat) : Memory.byte (launchMem font rom) a =
    if 0x50 ≤ a ∧ a < 0xA0 then font.toList.getD (a - 0x50) 0#8
    else if 0x200 ≤ a then rom.getD (a - 0x200) 0#8
    else 0#8 := by
  rw [launchMem, Memory.byte_setBytes _ _ (font_wf font) (rom_in_memory hrom), byte_font, romBase]
  by_cases hfont : 0x50 ≤ a ∧ a < 0xA0
  · have habove : ¬ 0x200 ≤ a := by omega
    rw [if_neg habove]
    simp only [if_pos hfont]
  · simp only [if_neg hfont]

end LaunchMem

/-- Settles O53: a launch is the reset state with the build, the inputs and a canonical memory put in. -/
theorem launchLoadsFontAndRom : Obligations.LaunchLoadsFontAndRom := by
  refine fun cfg font rom inputs => ⟨fun hrom => ?_, launch_of_gt cfg font inputs⟩
  exact ⟨_, launch_of_le cfg font inputs hrom, .of_pc_reset (launchMem_wf font hrom) rfl rfl, rfl, rfl,
    State.reset_reg, rfl, rfl, rfl, rfl, rfl, fun px _ py _ => State.reset_disp_get px py, rfl, rfl,
    fun a _ => byte_launchMem font hrom a⟩

end Sys2Proof.Machine
end
